-- ==== Sys2Proof/Word.lean ====
section
/-! DEFINITION. The word types of FRAMECORE: bytes, 32-bit bus words and the 12-bit window offset. -/

namespace Sys2Proof

/-- A byte, an unsigned 8-bit value (00_scope.md R9). -/
abbrev Byte := BitVec 8

/-- A register or bus data word, REG_WIDTH = 32 bits (00_scope.md R7). -/
abbrev Word := BitVec 32

/-- An offset into the 4096-byte register window (20_memory.md R60). -/
abbrev Offset := BitVec 12

end Sys2Proof
end

