-- ==== Sys2Proof/Syntax.lean ====
section
/-! DEFINITION. The eleven operations of spec/opcode_table.json and the three formats that carry them. -/

namespace Sys2Proof

/-- The formats of the opcode table (30_encoding.md R90): the register whose 32-bit write carries the word. -/
inductive Format where
  /-- A command word written to CMD (R91). -/
  | cmd
  /-- A word written to RXDATA (R96). -/
  | rxdata
  /-- A word written to CTRL (R97). -/
  | ctrl
deriving DecidableEq, Repr

/-- The operations of the opcode table, one constructor per row. `len` is the LEN field of format CMD, an unsigned byte
count (30_encoding.md R92). -/
inductive Instr where
  /-- NOP (44_control.md R222). -/
  | nop
  /-- CRC.ENC over IBUF[0..len) (40_crc.md R121). -/
  | crcEnc (len : Nat)
  /-- CRC.VAL over IBUF[0..len) (40_crc.md R122). -/
  | crcVal (len : Nat)
  /-- PAR.ENC over IBUF[0..len) (41_parity.md R145). -/
  | parEnc (len : Nat)
  /-- PAR.VAL over IBUF[0..len) (41_parity.md R146). -/
  | parVal (len : Nat)
  /-- STUFF over IBUF[0..len) (42_stuff_build.md R166). -/
  | stuff (len : Nat)
  /-- BUILD from the payload IBUF[0..len) (42_stuff_build.md R167). -/
  | build (len : Nat)
  /-- DECODE (43_decoder.md R189). -/
  | decode
  /-- RXFLUSH (43_decoder.md R194). -/
  | rxflush
  /-- RXPUSH of one received byte (43_decoder.md R181). -/
  | rxpush (b : Byte)
  /-- SRST, soft reset (44_control.md R224). -/
  | srst
deriving DecidableEq, Repr

/-- The format of an operation (the "format" column of the opcode table). -/
def Instr.format : Instr → Format
  | .nop | .crcEnc _ | .crcVal _ | .parEnc _ | .parVal _ | .stuff _ | .build _ | .decode | .rxflush => .cmd
  | .rxpush _ => .rxdata
  | .srst => .ctrl

/-- The LEN operand of a command that takes one; `none` for the others (30_encoding.md R92). -/
def Instr.len? : Instr → Option Nat
  | .crcEnc n | .crcVal n | .parEnc n | .parVal n | .stuff n | .build n => some n
  | .nop | .decode | .rxflush | .rxpush _ | .srst => none

end Sys2Proof
end

