-- ==== Sys2Proof/WellFormed.lean ====
section
/-! DEFINITION. Which terms of Instr an encoding exists for: LEN is an unsigned 16-bit field (30_encoding.md R92). -/

namespace Sys2Proof

/-- LEN fits its 16-bit field (30_encoding.md R92). A LEN of 65..65535 is well-formed: the word exists, and the command
is rejected with BAD_LENGTH when it executes. -/
def lenFits (n : Nat) : Bool := decide (n < 65536)

/-- An operation that some word encodes: each LEN operand fits its field. RXPUSH's byte fits by its type. -/
def Instr.wellFormed : Instr → Bool
  | .crcEnc n => lenFits n
  | .crcVal n => lenFits n
  | .parEnc n => lenFits n
  | .parVal n => lenFits n
  | .stuff n => lenFits n
  | .build n => lenFits n
  | .nop => true
  | .decode => true
  | .rxflush => true
  | .rxpush _ => true
  | .srst => true

end Sys2Proof
end

