-- ==== Sys2Proof/Decode.lean ====
section
/-! DEFINITION. The decoder of the three formats, total on every word and on any bytes, and the encoder beside it
(30_encoding.md R90 to R97). -/

namespace Sys2Proof

/-- The two ways a command word fails to decode (30_encoding.md R94, R95). Both are reported in STATUS.ERRCODE; neither
stops the machine. -/
inductive DecodeReject where
  /-- OPCODE is not 0x00..0x08. -/
  | illegalOpcode
  /-- RSVD is not 0, or LEN is not 0 on a command that takes none. -/
  | reservedField
deriving DecidableEq, Repr

/-- What a write to one of the three operation registers is. -/
inductive Decoded where
  /-- An operation of the opcode table. -/
  | instr (i : Instr)
  /-- A command word that is rejected by name (R94). -/
  | reject (e : DecodeReject)
  /-- A write that selects no operation: CTRL with bit 1 clear (R97), or a write that is not 32 bits wide (R63). -/
  | notAnOperation
deriving DecidableEq, Repr

/-- OPCODE, bits 7:0 of a command word (30_encoding.md R91). -/
def opcodeField (w : Word) : Byte := w.extractLsb' 0 8

/-- RSVD, bits 15:8 of a command word (30_encoding.md R91). -/
def rsvdField (w : Word) : Byte := w.extractLsb' 8 8

/-- LEN, bits 31:16 of a command word (30_encoding.md R91). -/
def lenField (w : Word) : BitVec 16 := w.extractLsb' 16 16

/-- The operation of each opcode with its LEN, `none` for a reserved opcode (30_encoding.md R93). -/
def commandOf (op : Byte) (n : Nat) : Option Instr :=
  match op.toNat with
  | 0 => some .nop
  | 1 => some (.crcEnc n)
  | 2 => some (.crcVal n)
  | 3 => some (.parEnc n)
  | 4 => some (.parVal n)
  | 5 => some (.stuff n)
  | 6 => some (.build n)
  | 7 => some .decode
  | 8 => some .rxflush
  | _ => none

/-- decodeCmd, total on every 32-bit word: illegal opcode first, then the reserved fields (30_encoding.md R95). -/
def decodeCmd (w : Word) : Decoded :=
  match commandOf (opcodeField w) (lenField w).toNat with
  | none => .reject .illegalOpcode
  | some i =>
    if rsvdField w ≠ 0 then .reject .reservedField
    else if i.len? = none ∧ lenField w ≠ 0 then .reject .reservedField
    else .instr i

/-- The decoder of one word in one format: CMD by R95, RXDATA by R96 (every word is a push, bits 31:8 ignored), CTRL by
R97 (bit 1 selects SRST whatever the other bits). -/
def decode (f : Format) (w : Word) : Decoded :=
  match f with
  | .cmd => decodeCmd w
  | .rxdata => .instr (.rxpush (w.extractLsb' 0 8))
  | .ctrl => if w.getLsbD 1 then .instr .srst else .notAnOperation

/-- The value of a byte list, byte k in bits [8k+7:8k] (20_memory.md R65). -/
def leValue : List Byte → Nat
  | [] => 0
  | b :: bs => b.toNat + 256 * leValue bs

/-- The `n` bytes of a value, least significant first (20_memory.md R65). -/
def leBytes : Nat → Nat → List Byte
  | 0, _ => []
  | n + 1, v => BitVec.ofNat 8 v :: leBytes n (v / 256)

/-- The decoder on the bytes of a write: four bytes are a word in bus byte order, any other count is no operation
(20_memory.md R63, R65). -/
def decodeBytes (f : Format) (bs : List Byte) : Decoded :=
  if bs.length = 4 then decode f (BitVec.ofNat 32 (leValue bs)) else .notAnOperation

/-- The word of a command: `(n << 16) | op` (30_encoding.md R93). -/
def cmdWord (op n : Nat) : Word := (BitVec.ofNat 32 n <<< 16) ||| BitVec.ofNat 32 op

/-- The encoder: the word that is written, to the register `i.format` names, to perform `i` (30_encoding.md R98). Ignored
bits are written as 0. -/
def encode : Instr → Word
  | .nop => cmdWord 0x00 0
  | .crcEnc n => cmdWord 0x01 n
  | .crcVal n => cmdWord 0x02 n
  | .parEnc n => cmdWord 0x03 n
  | .parVal n => cmdWord 0x04 n
  | .stuff n => cmdWord 0x05 n
  | .build n => cmdWord 0x06 n
  | .decode => cmdWord 0x07 0
  | .rxflush => cmdWord 0x08 0
  | .rxpush b => b.zeroExtend 32
  | .srst => 0x00000002

/-- The instruction the decoder reads from table bits `w`: laid out as the four bytes of a bus write, least significant
first. The bits alone do not name a format (0x00000002 is `crc.val 0` at CMD, `srst` at CTRL and a push of 2 at RXDATA),
so they are read as a write to CMD, the one command register (30_encoding.md R90; assumption log 5). -/
def decodeTableWord (nbits w : Nat) : Option Instr :=
  match decodeBytes .cmd (leBytes 4 (w % 2 ^ nbits)) with
  | .instr i => some i
  | .reject _ => none
  | .notAnOperation => none

end Sys2Proof
end

