-- ==== Sys2Proof/Config.lean ====
section
/-! DEFINITION. What the implementation fixes (00_scope.md R7) and the free values the spec leaves open. -/

namespace Sys2Proof.Config

/-- IBUF_SIZE, bytes of input buffer (00_scope.md R7). -/
abbrev ibufSize : Nat := 64

/-- OBUF_SIZE, bytes of output buffer (00_scope.md R7). -/
abbrev obufSize : Nat := 256

/-- Window offset of IBUF[0] (20_memory.md R61). -/
abbrev ibufBase : Nat := 0x100

/-- Window offset of OBUF[0] (20_memory.md R61). -/
abbrev obufBase : Nat := 0x200

/-- How far RXQ_DEPTH lies above its least value 138: no body, so a claim holds for each of the 119 depths the spec
admits (00_scope.md R7, 93_implementation_defined.md I6; assumption log 3). -/
opaque rxqDepthAbove : Fin 119

/-- RXQ_DEPTH, the capacity of the receive queue: any value in 138..256 (00_scope.md R7). -/
def rxqDepth : Nat := rxqDepthAbove.val + 138

/-- The unspecified byte at a window offset under a given draw: what a buffer byte holds that nothing has written since
the draw (10_state.md R36, R37; 93_implementation_defined.md I1 to I3). No body: nothing in Lean can evaluate it
(assumption log 2). -/
opaque freeByte (draw address : Nat) : Byte

end Sys2Proof.Config
end

