-- ==== Sys2Proof/Machine/State.lean ====
section
/-! DEFINITION. The state of FRAMECORE as plain data (10_state.md R20), the agents' pending accesses, the reasons a step
could stop, and the state after reset (70_reset_and_hazards.md R281). -/

namespace Sys2Proof.Machine

/-- CTRL.SCHEME, 1 bit: 0 = CRC, 1 = Parity (10_state.md R23). -/
inductive Scheme where
  | crc
  | parity
deriving DecidableEq, Repr

/-- STATUS.RESULT, the seven codes that are ever written to its 4 bits (10_state.md R25; 7..15 are never written). -/
inductive Result where
  | ok
  | noFrame
  | frame
  | emptyFrame
  | corruptedDelimiter
  | integrityCheckFailed
  | cmdError
deriving DecidableEq, Repr

/-- STATUS.ERRCODE, the six codes that are ever written to its 4 bits (10_state.md R26; 6..15 are never written). -/
inductive ErrCode where
  | none
  | illegalOpcode
  | reservedField
  | badLength
  | badGenerator
  | badTags
deriving DecidableEq, Repr

/-- The width of a bus access: n ∈ (1, 2, 4) bytes (20_memory.md R62). -/
inductive BusSize where
  | byte
  | half
  | word
deriving DecidableEq, Repr

/-- An n-byte bus value, n ∈ (1, 2, 4) (20_memory.md R62). -/
inductive BusValue where
  | w8 (v : BitVec 8)
  | w16 (v : BitVec 16)
  | w32 (v : BitVec 32)
deriving DecidableEq, Repr

/-- One step of an agent outside the block (20_memory.md R75, 70_reset_and_hazards.md R280). -/
inductive Input where
  /-- The Host's MemRead(off, n). -/
  | hostRead (off : Offset) (n : BusSize)
  /-- The Host's MemWrite(off, n, v). -/
  | hostWrite (off : Offset) (v : BusValue)
  /-- The Line agent's push of a received byte. -/
  | linePush (b : Byte)
  /-- Assertion of the hardware reset input. -/
  | hwReset
deriving DecidableEq, Repr

/-- The bytes of one buffer: `cells` lists, by window offset, the bytes written since the draw numbered `draw`; every
other offset reads that draw's unspecified byte (10_state.md R36, R37). -/
structure Memory where
  draw : Nat
  cells : List Host.Cell
deriving DecidableEq, Repr

/-- The architectural state of 10_state.md R20, then three fields of the model's own: the number of draws of unspecified
bytes made so far, the value the last bus read returned, and the agents' steps still to come in their total order. -/
structure State where
  /-- CTRL.SCHEME (R23). -/
  scheme : Scheme
  /-- The generator G, GEN_HI[0] and GEN_LO (R27). -/
  gen : BitVec 33
  /-- TAGS.START (R29). -/
  tagStart : Byte
  /-- TAGS.STOP (R29). -/
  tagStop : Byte
  /-- TAGS.ESC (R29). -/
  tagEsc : Byte
  /-- STATUS.RESULT (R24, R25). -/
  result : Result
  /-- STATUS.ERRCODE (R24, R26). -/
  errcode : ErrCode
  /-- STATUS.RX_OVF (R24). -/
  rxOvf : Bool
  /-- REM (R31). -/
  rem : Word
  /-- OLEN, 0..OBUF_SIZE (R32). -/
  olen : Nat
  /-- CONSUMED, 0..RXQ_DEPTH (R35). -/
  consumed : Nat
  /-- IBUF, 64 bytes at window offsets 0x100..0x13F (R36). -/
  ibuf : Memory
  /-- OBUF, 256 bytes at window offsets 0x200..0x2FF (R37). -/
  obuf : Memory
  /-- RXQ, the receive queue, oldest byte first (R38). -/
  rxq : List Byte
  /-- The model's own: the number of the next draw of unspecified bytes. -/
  draws : Nat
  /-- The model's own: the value the last MemRead returned, if any. -/
  readData : Option BusValue
  /-- The model's own: the agents' steps to come, in the one total order of 20_memory.md R72. -/
  inputs : List Input
deriving DecidableEq, Repr

/-- Why a step would stop with a fault. No constructor: no behaviour of this hardware faults (60_exceptions.md R250,
93_implementation_defined.md), so no step ever does. -/
inductive Fault where
deriving DecidableEq, Repr

/-- Why a step would be refused for want of a meaning. -/
inductive Refusal where
  /-- An operation without a meaning. Raised by no arm: every operation has one. Safe: it would stop the run. -/
  | notModelled (mnemonic : String)
deriving DecidableEq, Repr

/-- The machine right after reset (70_reset_and_hazards.md R281): both buffers hold the unspecified bytes of draw 0
(assumption log 2), and no agent has a step pending. -/
def State.reset : State where
  scheme := .crc
  gen := 0
  tagStart := 0x7B
  tagStop := 0x7D
  tagEsc := 0x5C
  result := .ok
  errcode := .none
  rxOvf := false
  rem := 0
  olen := 0
  consumed := 0
  ibuf := ⟨0, []⟩
  obuf := ⟨0, []⟩
  rxq := []
  draws := 1
  readData := none
  inputs := []

end Sys2Proof.Machine
end

