-- ==== Sys2Proof/Machine/Ops.lean ====
section
/-! DEFINITION. The named operations over buffers, registers and the receive queue; rejecting a command, the one
exception-like operation of this hardware; soft and hardware reset. -/

namespace Sys2Proof.Machine

/-! ### Numbers (00_scope.md R10) -/

/-- bitlen(x): 0 for 0, otherwise the index of the highest set bit plus 1 (00_scope.md R10). -/
def bitlen (x : Nat) : Nat := if x = 0 then 0 else Nat.log2 x + 1

/-- deg(G) = bitlen(G) − 1 for G ≥ 1, and 0 for G = 0 as CFGINFO.DEGREE reads it (40_crc.md R110, 10_state.md R28). -/
def degree (G : Nat) : Nat := bitlen G - 1

/-- L = ceil(d/8), the code length in bytes of a generator (00_scope.md R8). -/
def crcLen (G : Nat) : Nat := (degree G + 7) / 8

/-- popcount of a byte (00_scope.md R10). -/
def popcount (b : Byte) : Nat := (List.range 8).countP fun i => b.getLsbD i

/-! ### Buffers (10_state.md R36, R37) -/

/-- The listed byte at an address, if one is listed. -/
def findCell : List Host.Cell → Nat → Option Byte
  | [], _ => none
  | (k, v) :: cs, a => if k = a then some v else findCell cs a

/-- The list with the byte at an address set, addresses kept rising. -/
def insertCell : List Host.Cell → Nat → Byte → List Host.Cell
  | [], a, b => [(a, b)]
  | (k, v) :: cs, a, b =>
    if a < k then (a, b) :: (k, v) :: cs
    else if a = k then (a, b) :: cs
    else (k, v) :: insertCell cs a b

/-- What an address that is not listed reads as: the unspecified byte of the buffer's draw (10_state.md R36, R37). -/
def Memory.unlisted (m : Memory) (a : Nat) : Byte := Config.freeByte m.draw a

/-- The byte at a window offset. -/
def Memory.read (m : Memory) (a : Nat) : Byte :=
  match findCell m.cells a with
  | some b => b
  | none => m.unlisted a

/-- The buffer with one byte set. -/
def Memory.write (m : Memory) (a : Nat) (b : Byte) : Memory := { m with cells := insertCell m.cells a b }

/-- The buffer with consecutive bytes set from an offset up. -/
def Memory.writeBytes (m : Memory) (a : Nat) : List Byte → Memory
  | [] => m
  | b :: bs => (m.write a b).writeBytes (a + 1) bs

/-- The cells of consecutive bytes from an offset up. -/
def cellsFrom (a : Nat) : List Byte → List Host.Cell
  | [] => []
  | b :: bs => (a, b) :: cellsFrom (a + 1) bs

/-- The buffer that holds the given bytes from an offset up and a fresh draw everywhere else. -/
def Memory.fresh (draw a : Nat) (bs : List Byte) : Memory := ⟨draw, cellsFrom a bs⟩

/-- The canonical form: addresses strictly rising. No listed byte is one an unlisted address is known to read as, since
that is a free value (assumption log 2). -/
def Memory.wf (m : Memory) : Bool := decide (m.cells.Pairwise fun c c' => c.1 < c'.1)

/-- Every listed address lies in a range. -/
def Memory.within (m : Memory) (lo hi : Nat) : Bool := m.cells.all fun c => decide (lo ≤ c.1) && decide (c.1 < hi)

/-- `n` consecutive bytes from a window offset. -/
def Memory.readBytes (m : Memory) (a n : Nat) : List Byte := (List.range n).map fun k => m.read (a + k)

/-- One byte of the window's memory: IBUF and OBUF at their offsets, 0 at every other one (20_memory.md R61, R66). The
registers are no memory: they have their own reads. -/
def State.memByte (s : State) (a : Nat) : Byte :=
  if Config.ibufBase ≤ a ∧ a < Config.ibufBase + Config.ibufSize then s.ibuf.read a
  else if Config.obufBase ≤ a ∧ a < Config.obufBase + Config.obufSize then s.obuf.read a
  else 0

/-! ### Results of commands (44_control.md R221) -/

/-- The generator G as a natural below 2^33 (10_state.md R27). -/
def State.G (s : State) : Nat := s.gen.toNat

/-- STATUS.RESULT of an accepted command, with ERRCODE = NONE (10_state.md R24). -/
def State.accept (s : State) (r : Result) : State := { s with result := r, errcode := .none }

/-- The output of a command: OBUF[0..OLEN) holds the bytes, OLEN their count, and the rest of OBUF is drawn anew
(10_state.md R32, R37). -/
def State.setOutput (s : State) (out : List Byte) : State :=
  { s with obuf := Memory.fresh s.draws Config.obufBase out, olen := out.length, draws := s.draws + 1 }

/-- REM takes a remainder or parity value (10_state.md R31). -/
def State.setRem (s : State) (r : Nat) : State := { s with rem := BitVec.ofNat 32 r }

/-- The first `k` bytes leave the receive queue and CONSUMED reports them (43_decoder.md R190, 10_state.md R35). -/
def State.consume (s : State) (k : Nat) : State := { s with rxq := s.rxq.drop k, consumed := k }

/-- RXQ takes one byte at its back, or RX_OVF is set and the byte dropped when it is full (43_decoder.md R181, R182). -/
def State.push (s : State) (b : Byte) : State :=
  if s.rxq.length < Config.rxqDepth then { s with rxq := s.rxq ++ [b] } else { s with rxOvf := true }

/-! ### Rejecting a command (60_exceptions.md R253, R254) -/

/-- reject(e): RESULT = CMD_ERROR and ERRCODE = e, and nothing else changes (60_exceptions.md R253). -/
def State.reject (s : State) (e : ErrCode) : State := { s with result := .cmdError, errcode := e }

/-- The ERRCODE of a word that does not decode (30_encoding.md R95). -/
def rejectCode : DecodeReject → ErrCode
  | .illegalOpcode => .illegalOpcode
  | .reservedField => .reservedField

/-- GEN_OK: G ≥ 2 (10_state.md R27). -/
def State.genOk (s : State) : Bool := decide (2 ≤ s.G)

/-- TAGS_OK: START, STOP and ESC pairwise distinct (10_state.md R29). -/
def State.tagsOk (s : State) : Bool :=
  decide (s.tagStart ≠ s.tagStop ∧ s.tagStart ≠ s.tagEsc ∧ s.tagStop ≠ s.tagEsc)

/-- LEN > IBUF_SIZE on a command that takes a length (60_exceptions.md R254, check 3). -/
def lenTooLong : Instr → Bool
  | .crcEnc n | .crcVal n | .parEnc n | .parVal n | .stuff n | .build n => decide (Config.ibufSize < n)
  | .nop | .decode | .rxflush | .rxpush _ | .srst => false

/-- usesGen (60_exceptions.md R254): always for the CRC coder commands, under SCHEME = 0 for BUILD and DECODE. -/
def State.usesGen (s : State) : Instr → Bool
  | .crcEnc _ | .crcVal _ => true
  | .build _ | .decode => decide (s.scheme = .crc)
  | .nop | .parEnc _ | .parVal _ | .stuff _ | .rxflush | .rxpush _ | .srst => false

/-- usesTags (60_exceptions.md R254). -/
def usesTags : Instr → Bool
  | .stuff _ | .build _ | .decode => true
  | .nop | .crcEnc _ | .crcVal _ | .parEnc _ | .parVal _ | .rxflush | .rxpush _ | .srst => false

/-- commandCheck: checks 3 to 5 of 60_exceptions.md R254 in their order; NONE when the command is accepted. -/
def State.commandCheck (s : State) (i : Instr) : ErrCode :=
  if lenTooLong i then .badLength
  else if s.usesGen i && !s.genOk then .badGenerator
  else if usesTags i && !s.tagsOk then .badTags
  else .none

/-- A command runs when its check answers NONE and is rejected otherwise (44_control.md R220). -/
def State.command (s : State) (i : Instr) (effect : State → State) : State :=
  match s.commandCheck i with
  | .none => effect s
  | e => s.reject e

/-! ### Reset (70_reset_and_hazards.md R281) -/

/-- resetAll(): every component of 10_state.md R20 takes its reset value; both buffers are drawn anew. The agents' steps
to come and the value of the last read are no state of the block and stay. -/
def State.resetAll (s : State) : State :=
  { s with
    scheme := .crc, gen := 0, tagStart := 0x7B, tagStop := 0x7D, tagEsc := 0x5C
    result := .ok, errcode := .none, rxOvf := false
    rem := 0, olen := 0, consumed := 0, rxq := []
    ibuf := Memory.fresh s.draws Config.ibufBase [], obuf := Memory.fresh s.draws Config.obufBase []
    draws := s.draws + 1 }

end Sys2Proof.Machine
end

