-- ==== Sys2Proof/Machine/Flags.lean ====
section
/-! DEFINITION. The read values of the status and configuration registers, composed from the state (10_state.md R23 to
R35). -/

namespace Sys2Proof.Machine

/-- A truth value as a bit of a composed register. -/
def bit (b : Bool) : Nat := if b then 1 else 0

/-- CTRL.SCHEME as a bit (10_state.md R23). -/
def Scheme.code : Scheme → Nat
  | .crc => 0
  | .parity => 1

/-- The scheme a bit selects (10_state.md R23). -/
def Scheme.ofBit (b : Bool) : Scheme := if b then .parity else .crc

/-- The numbers of STATUS.RESULT (10_state.md R25). -/
def Result.code : Result → Nat
  | .ok => 0
  | .noFrame => 1
  | .frame => 2
  | .emptyFrame => 3
  | .corruptedDelimiter => 4
  | .integrityCheckFailed => 5
  | .cmdError => 6

/-- The numbers of STATUS.ERRCODE (10_state.md R26). -/
def ErrCode.code : ErrCode → Nat
  | .none => 0
  | .illegalOpcode => 1
  | .reservedField => 2
  | .badLength => 3
  | .badGenerator => 4
  | .badTags => 5

/-- RX_EMPTY: live, 1 exactly when len(RXQ) = 0 (10_state.md R24). -/
def State.rxEmpty (s : State) : Bool := decide (s.rxq.length = 0)

/-- RX_FULL: live, 1 exactly when len(RXQ) = RXQ_DEPTH (10_state.md R24). -/
def State.rxFull (s : State) : Bool := decide (s.rxq.length = Config.rxqDepth)

/-- STATUS as it reads (10_state.md R24). -/
def State.statusWord (s : State) : Word :=
  BitVec.ofNat 32 (s.result.code + s.errcode.code * 2 ^ 4 + bit s.rxOvf * 2 ^ 8 + bit s.rxEmpty * 2 ^ 9
    + bit s.rxFull * 2 ^ 10)

/-- The code length L of the scheme CTRL.SCHEME selects (00_scope.md R8, 43_decoder.md R188). -/
def State.codeLen (s : State) : Nat :=
  match s.scheme with
  | .crc => crcLen s.G
  | .parity => 1

/-- CFGINFO as it reads, computed from the current configuration (10_state.md R28). -/
def State.cfgInfo (s : State) : Word :=
  BitVec.ofNat 32 (degree s.G + crcLen s.G * 2 ^ 8 + bit s.genOk * 2 ^ 16 + bit s.tagsOk * 2 ^ 17 + s.codeLen * 2 ^ 24)

/-- CTRL as it reads: SCHEME in bit 0, SRST reads 0 (10_state.md R23). -/
def State.ctrlWord (s : State) : Word := BitVec.ofNat 32 s.scheme.code

/-- TAGS as it reads (10_state.md R29). -/
def State.tagsWord (s : State) : Word :=
  BitVec.ofNat 32 (s.tagStart.toNat + s.tagStop.toNat * 2 ^ 8 + s.tagEsc.toNat * 2 ^ 16)

/-- GEN_LO as it reads (10_state.md R27). -/
def State.genLoWord (s : State) : Word := s.gen.extractLsb' 0 32

/-- GEN_HI as it reads (10_state.md R27). -/
def State.genHiWord (s : State) : Word := BitVec.ofNat 32 (bit (s.gen.getLsbD 32))

end Sys2Proof.Machine
end

