-- ==== Sys2Proof/Machine/Operands.lean ====
section
/-! DEFINITION. Operand forms: the input bytes a LEN names, and the bus values of 1, 2 and 4 bytes (20_memory.md R65). -/

namespace Sys2Proof.Machine

/-- The input byte sequence IBUF[0..n) (30_encoding.md R92). -/
def State.input (s : State) (n : Nat) : List Byte := s.ibuf.readBytes Config.ibufBase n

/-- The number of bytes of an access (20_memory.md R62). -/
def BusSize.bytes : BusSize → Nat
  | .byte => 1
  | .half => 2
  | .word => 4

/-- The width of a bus value. -/
def BusValue.size : BusValue → BusSize
  | .w8 _ => .byte
  | .w16 _ => .half
  | .w32 _ => .word

/-- The bytes of a bus value, byte k in bits [8k+7:8k] (20_memory.md R65). -/
def BusValue.toBytes : BusValue → List Byte
  | .w8 v => leBytes 1 v.toNat
  | .w16 v => leBytes 2 v.toNat
  | .w32 v => leBytes 4 v.toNat

/-- The n-byte bus value of a natural. -/
def BusSize.value (n : BusSize) (v : Nat) : BusValue :=
  match n with
  | .byte => .w8 (BitVec.ofNat 8 v)
  | .half => .w16 (BitVec.ofNat 16 v)
  | .word => .w32 (BitVec.ofNat 32 v)

/-- Natural alignment: off mod n = 0 (20_memory.md R63, R64). -/
def aligned (off : Offset) (n : BusSize) : Bool := decide (off.toNat % n.bytes = 0)

end Sys2Proof.Machine
end

