-- ==== Sys2Proof/Machine/Bus.lean ====
section
/-! DEFINITION. The register window: the map, reads and plain writes of registers and buffers, and fetching the next
operation from the agents' pending steps (20_memory.md, 44_control.md R223 to R231). -/

namespace Sys2Proof.Machine

/-- The regions of the window (20_memory.md R61). -/
inductive Region where
  | registers
  | ibuf
  | obuf
  | reserved
deriving DecidableEq, Repr

/-- The twelve registers (10_state.md R22). -/
inductive Reg where
  | ctrl
  | status
  | cmd
  | genLo
  | genHi
  | tags
  | cfgInfo
  | rem
  | olen
  | rxCount
  | rxData
  | consumed
deriving DecidableEq, Repr

/-- The window map (20_memory.md R61). -/
def regionOf (off : Offset) : Region :=
  if off.toNat < 0x030 then .registers
  else if 0x100 ≤ off.toNat ∧ off.toNat < 0x140 then .ibuf
  else if 0x200 ≤ off.toNat ∧ off.toNat < 0x300 then .obuf
  else .reserved

/-- The offset of a register (10_state.md R22). -/
def Reg.offset : Reg → Offset
  | .ctrl => 0x000
  | .status => 0x004
  | .cmd => 0x008
  | .genLo => 0x00C
  | .genHi => 0x010
  | .tags => 0x014
  | .cfgInfo => 0x018
  | .rem => 0x01C
  | .olen => 0x020
  | .rxCount => 0x024
  | .rxData => 0x028
  | .consumed => 0x02C

/-- The registers in window order. -/
def Reg.all : List Reg :=
  [.ctrl, .status, .cmd, .genLo, .genHi, .tags, .cfgInfo, .rem, .olen, .rxCount, .rxData, .consumed]

/-- The register at an offset, when one starts there (10_state.md R22). -/
def regAt (off : Offset) : Option Reg := Reg.all.find? fun r => r.offset == off

/-- The register a legal access of a width reaches: aligned and 32 bits wide (20_memory.md R63). -/
def regAccess (off : Offset) (n : BusSize) : Option Reg := if n = .word then regAt off else none

/-- The value of a register as it reads; CMD and RXDATA read 0 (44_control.md R229; 10_state.md R23 to R35). -/
def State.readReg (s : State) : Reg → Word
  | .ctrl => s.ctrlWord
  | .status => s.statusWord
  | .cmd => 0
  | .genLo => s.genLoWord
  | .genHi => s.genHiWord
  | .tags => s.tagsWord
  | .cfgInfo => s.cfgInfo
  | .rem => s.rem
  | .olen => BitVec.ofNat 32 (s.olen % 2 ^ 16)
  | .rxCount => BitVec.ofNat 32 (s.rxq.length % 2 ^ 16)
  | .rxData => 0
  | .consumed => BitVec.ofNat 32 (s.consumed % 2 ^ 16)

/-- The value MemRead(off, n) returns; an access that is not legal reads 0 (20_memory.md R62 to R66; 44_control.md R229
to R231). -/
def State.readValue (s : State) (off : Offset) (n : BusSize) : BusValue :=
  match regionOf off with
  | .registers =>
    match regAccess off n with
    | some r => .w32 (s.readReg r)
    | none => n.value 0
  | .ibuf => n.value (if aligned off n then leValue (s.ibuf.readBytes off.toNat n.bytes) else 0)
  | .obuf => n.value (if aligned off n then leValue (s.obuf.readBytes off.toNat n.bytes) else 0)
  | .reserved => n.value 0

/-- MemRead(off, n): the value is returned and no state of the block changes (20_memory.md R68). -/
def State.busRead (s : State) (off : Offset) (n : BusSize) : State := { s with readData := some (s.readValue off n) }

/-- A legal write of a word to a register that performs no operation of the opcode table (44_control.md R223, R225 to
R228). CMD and RXDATA words are operations and never reach here as such. -/
def State.writeReg (s : State) (w : Word) : Reg → State
  | .ctrl => { s with scheme := Scheme.ofBit (w.getLsbD 0) }
  | .status => if w.getLsbD 8 then { s with rxOvf := false } else s
  | .cmd => s
  | .genLo => { s with gen := (s.gen.extractLsb' 32 1 ++ w : BitVec 33) }
  | .genHi => { s with gen := (w.extractLsb' 0 1 ++ s.gen.extractLsb' 0 32 : BitVec 33) }
  | .tags => { s with tagStart := w.extractLsb' 0 8, tagStop := w.extractLsb' 8 8, tagEsc := w.extractLsb' 16 8 }
  | .cfgInfo => s
  | .rem => s
  | .olen => s
  | .rxCount => s
  | .rxData => s
  | .consumed => s

/-- A write of an n-byte value to a register offset: only a legal one is performed (20_memory.md R62, R63). -/
def State.writeRegValue (s : State) (off : Offset) : BusValue → State
  | .w32 w =>
    match regAt off with
    | some r => s.writeReg w r
    | none => s
  | .w16 _ => s
  | .w8 _ => s

/-- MemWrite(off, n, v) of a write that performs no operation: a register, IBUF, or ignored (20_memory.md R62 to R67;
44_control.md R230, R231). -/
def State.busWrite (s : State) (off : Offset) (v : BusValue) : State :=
  match regionOf off with
  | .registers => s.writeRegValue off v
  | .ibuf => if aligned off v.size then { s with ibuf := s.ibuf.writeBytes off.toNat v.toBytes } else s
  | .obuf => s
  | .reserved => s

/-- The format of the operations a register's write selects (30_encoding.md R90). -/
def Reg.format? : Reg → Option Format
  | .cmd => some .cmd
  | .rxData => some .rxdata
  | .ctrl => some .ctrl
  | .status | .genLo | .genHi | .tags | .cfgInfo | .rem | .olen | .rxCount | .consumed => none

/-- The register whose 32-bit write carries a word of a format (30_encoding.md R90, R96, R97). -/
def portOf : Format → Reg
  | .cmd => .cmd
  | .rxdata => .rxData
  | .ctrl => .ctrl

/-- The decoder of a Host write: the bytes written to one of the three operation registers (30_encoding.md R90, R96, R97;
44_control.md R220). -/
def decodeWrite (off : Offset) (v : BusValue) : Decoded :=
  match (regAt off).bind Reg.format? with
  | some f => decodeBytes f v.toBytes
  | none => .notAnOperation

/-- What the next agent step asks of the machine. -/
inductive Fetched where
  /-- Perform an operation of the opcode table from this state. -/
  | run (i : Instr) (s : State)
  /-- The step is complete with this state. -/
  | done (s : State)
deriving DecidableEq, Repr

/-- What one agent step asks of the machine: a Host write may select an operation or be a plain write, a rejected command
word only writes STATUS, a Line push is RXPUSH, and the reset input is resetAll (20_memory.md R75; 44_control.md R220;
70_reset_and_hazards.md R280). -/
def State.takeInput (s : State) : Input → Fetched
  | .hostRead off n => .done (s.busRead off n)
  | .hostWrite off v =>
    match decodeWrite off v with
    | .instr i => .run i s
    | .reject e => .done (s.reject (rejectCode e))
    | .notAnOperation => .done (s.busWrite off v)
  | .linePush b => .run (.rxpush b) s
  | .hwReset => .done s.resetAll

/-- Fetching: the first of the agents' pending steps leaves the list and is taken; with none pending the block holds its
state (20_memory.md R72; 60_exceptions.md R263). -/
def State.fetch (s : State) : Fetched :=
  match s.inputs with
  | [] => .done s
  | x :: rest => State.takeInput { s with inputs := rest } x

end Sys2Proof.Machine
end

