-- ==== Sys2Proof/Machine/Control.lean ====
section
/-! DEFINITION. NOP and SRST (44_control.md R222, R224). -/

namespace Sys2Proof.Machine

/-- NOP: report success and nothing else (44_control.md R222). -/
def execNop (s : State) : Host.Outcome State Fault Refusal := .next (s.accept .ok)

/-- SRST: resetAll() (44_control.md R224, 70_reset_and_hazards.md R281). -/
def execSrst (s : State) : Host.Outcome State Fault Refusal := .next s.resetAll

end Sys2Proof.Machine
end

