-- ==== Sys2Proof/Machine/Crc.lean ====
section
/-! DEFINITION. The CRC division engine and the commands CRC.ENC and CRC.VAL (40_crc.md). -/

namespace Sys2Proof.Machine

/-- bitsOf1(b): the bits of a byte, most significant first (40_crc.md R111). -/
def bitsOf1 (b : Byte) : List Bool :=
  [b.getLsbD 7, b.getLsbD 6, b.getLsbD 5, b.getLsbD 4, b.getLsbD 3, b.getLsbD 2, b.getLsbD 1, b.getLsbD 0]

/-- bitsOf(s): the bits of a byte sequence in index order (40_crc.md R111). -/
def bitsOf (s : List Byte) : List Bool := s.flatMap bitsOf1

/-- One division step: shift left, take the next bit, subtract the generator when the register is as long as it
(40_crc.md R112). -/
def divStep (G R : Nat) (b : Bool) : Nat :=
  let R' := (R <<< 1) ||| b.toNat
  if bitlen R' ≥ degree G + 1 then R' ^^^ G else R'

/-- The division of a bit sequence, from the register at 0 (40_crc.md R113). -/
def divBits (G : Nat) (bits : List Bool) : Nat := bits.foldl (divStep G) 0

/-- The L bytes of a code value, most significant first (40_crc.md R115). -/
def codeBytes (L C : Nat) : List Byte := (List.range L).map fun i => BitVec.ofNat 8 (C >>> (8 * (L - 1 - i)))

/-- The remainder of the payload followed by `degree` zero bits (40_crc.md R115, R116). -/
def crcRem (G : Nat) (P : List Byte) : Nat := divBits G (bitsOf P ++ List.replicate (degree G) false)

/-- crcEncode(G, P) = (R, code): the code is R moved up by the unused low bits of the last byte (40_crc.md R115). -/
def crcEncode (G : Nat) (P : List Byte) : Nat × List Byte :=
  (crcRem G P, codeBytes (crcLen G) (crcRem G P <<< (8 * crcLen G - degree G)))

/-- crcRemainder(G, M): all bits of M, no padding (40_crc.md R117). -/
def crcRemainder (G : Nat) (M : List Byte) : Nat := divBits G (bitsOf M)

/-- RESULT of a validation: OK exactly when the remainder or parity is 0 (40_crc.md R118, 41_parity.md R144). -/
def validation (r : Nat) : Result := if r = 0 then .ok else .integrityCheckFailed

/-- CRC.ENC (40_crc.md R121). -/
def execCrcEnc (n : Nat) (s : State) : Host.Outcome State Fault Refusal :=
  .next <| s.command (.crcEnc n) fun s =>
    ((s.setOutput (crcEncode s.G (s.input n)).2).setRem (crcEncode s.G (s.input n)).1).accept .ok

/-- CRC.VAL (40_crc.md R122). -/
def execCrcVal (n : Nat) (s : State) : Host.Outcome State Fault Refusal :=
  .next <| s.command (.crcVal n) fun s =>
    ((s.setOutput []).setRem (crcRemainder s.G (s.input n))).accept (validation (crcRemainder s.G (s.input n)))

end Sys2Proof.Machine
end

