-- ==== Sys2Proof/Machine/Parity.lean ====
section
/-! DEFINITION. The parity generator and validator and the commands PAR.ENC and PAR.VAL (41_parity.md). -/

namespace Sys2Proof.Machine

/-- bitParity(b) = popcount(b) mod 2 (41_parity.md R140). -/
def bitParity (b : Byte) : Nat := popcount b % 2

/-- framesParity(s): the XOR-fold of bitParity from 0 (41_parity.md R141). -/
def framesParity (s : List Byte) : Nat := s.foldl (fun p b => p ^^^ bitParity b) 0

/-- The parity code: one byte, 0x00 or 0x01 (41_parity.md R143). -/
def parityCode (P : List Byte) : List Byte := [BitVec.ofNat 8 (framesParity P)]

/-- PAR.ENC (41_parity.md R145). -/
def execParEnc (n : Nat) (s : State) : Host.Outcome State Fault Refusal :=
  .next <| s.command (.parEnc n) fun s =>
    ((s.setOutput (parityCode (s.input n))).setRem (framesParity (s.input n))).accept .ok

/-- PAR.VAL (41_parity.md R146). -/
def execParVal (n : Nat) (s : State) : Host.Outcome State Fault Refusal :=
  .next <| s.command (.parVal n) fun s =>
    ((s.setOutput []).setRem (framesParity (s.input n))).accept (validation (framesParity (s.input n)))

end Sys2Proof.Machine
end

