-- ==== Sys2Proof/Machine/StuffBuild.lean ====
section
/-! DEFINITION. The byte-escape stuffer, the frame builder and the commands STUFF and BUILD (42_stuff_build.md). -/

namespace Sys2Proof.Machine

/-- isTag(b): the byte equals START, STOP or ESC (42_stuff_build.md R160). -/
def State.isTag (s : State) (b : Byte) : Bool := b == s.tagStart || b == s.tagStop || b == s.tagEsc

/-- stuff: an ESC before every tag value, every other byte as it is (42_stuff_build.md R161). -/
def State.stuffed (s : State) : List Byte → List Byte
  | [] => []
  | b :: bs => if s.isTag b then s.tagEsc :: b :: s.stuffed bs else b :: s.stuffed bs

/-- schemeEncode(P): the value for REM and the code bytes of the active scheme (42_stuff_build.md R163). -/
def State.schemeEncode (s : State) (P : List Byte) : Nat × List Byte :=
  match s.scheme with
  | .crc => crcEncode s.G P
  | .parity => (framesParity P, parityCode P)

/-- The wire frame of a payload: START, the stuffed payload and code, STOP (42_stuff_build.md R164). -/
def State.wireFrame (s : State) (P : List Byte) : List Byte :=
  [s.tagStart] ++ s.stuffed (P ++ (s.schemeEncode P).2) ++ [s.tagStop]

/-- STUFF (42_stuff_build.md R166). -/
def execStuff (n : Nat) (s : State) : Host.Outcome State Fault Refusal :=
  .next <| s.command (.stuff n) fun s => (s.setOutput (s.stuffed (s.input n))).accept .ok

/-- BUILD (42_stuff_build.md R167). -/
def execBuild (n : Nat) (s : State) : Host.Outcome State Fault Refusal :=
  .next <| s.command (.build n) fun s =>
    ((s.setOutput (s.wireFrame (s.input n))).setRem (s.schemeEncode (s.input n)).1).accept .ok

end Sys2Proof.Machine
end

