-- ==== Sys2Proof/Machine/Receive.lean ====
section
/-! DEFINITION. The receive queue, the destuffer with the frame-recovery state machine, and RXPUSH, DECODE and RXFLUSH
(43_decoder.md). -/

namespace Sys2Proof.Machine

/-- How phase 1 of a decoder call ends (43_decoder.md R184). -/
inductive Seek where
  /-- The queue is exhausted, or a trailing ESC is kept: `k` bytes are garbage. -/
  | exhausted (k : Nat)
  /-- An unescaped START at index `i`, with the bytes after it. -/
  | found (i : Nat) (rest : List Byte)
deriving DecidableEq, Repr

/-- How phase 2 of a decoder call ends (43_decoder.md R185, R186). -/
inductive Accum where
  /-- No STOP yet: the candidate that starts at index `s` stays. -/
  | incomplete (s : Nat)
  /-- An unescaped STOP just before index `k`, with the staged body. -/
  | closed (k : Nat) (staged : List Byte)
deriving DecidableEq, Repr

/-- The outcome of a decoder call with the components it carries (43_decoder.md R183). -/
inductive DecodeOutcome where
  | noFrame
  | emptyFrame
  | corruptedDelimiter
  | integrityCheckFailed (r : Nat)
  | frame (payload : List Byte) (r : Nat)
deriving DecidableEq, Repr

/-- Phase 1, from index `i`: discard up to the first unescaped START, an ESC together with the byte after it
(43_decoder.md R184). -/
def State.seekStart (s : State) (i : Nat) : List Byte → Seek
  | [] => .exhausted i
  | b :: q =>
    if b = s.tagStart then .found i q
    else if b = s.tagEsc then
      match q with
      | [] => .exhausted i
      | _ :: q' => s.seekStart (i + 2) q'
    else s.seekStart (i + 1) q

/-- Phase 2, the candidate starting at `start` and the cursor at `j`: destuff up to an unescaped STOP; an unescaped START
begins a new candidate (43_decoder.md R185, R186). -/
def State.accumulate (s : State) (start : Nat) (staged : List Byte) (j : Nat) : List Byte → Accum
  | [] => .incomplete start
  | b :: q =>
    if b = s.tagEsc then
      match q with
      | [] => .incomplete start
      | c :: q' => s.accumulate start (staged ++ [c]) (j + 2) q'
    else if b = s.tagStop then .closed (j + 1) staged
    else if b = s.tagStart then s.accumulate j [] (j + 1) q
    else s.accumulate start (staged ++ [b]) (j + 1) q

/-- schemeValidate(M): the remainder or parity of the active scheme over payload and code (43_decoder.md R188). -/
def State.schemeValidate (s : State) (M : List Byte) : Nat :=
  match s.scheme with
  | .crc => crcRemainder s.G M
  | .parity => framesParity M

/-- Phase 3: the length checks and the validation of a staged body (43_decoder.md R187, R188). -/
def State.validateBody (s : State) (staged : List Byte) : DecodeOutcome :=
  if staged.length = 0 then .emptyFrame
  else if staged.length < s.codeLen then .corruptedDelimiter
  else if s.schemeValidate staged ≠ 0 then .integrityCheckFailed (s.schemeValidate staged)
  else .frame (staged.take (staged.length - s.codeLen)) (s.schemeValidate staged)

/-- decodeStep(Q): the outcome of one decoder call and the number of bytes it removes (43_decoder.md R183). -/
def State.decodeStep (s : State) (Q : List Byte) : DecodeOutcome × Nat :=
  match s.seekStart 0 Q with
  | .exhausted k => (.noFrame, k)
  | .found i q =>
    match s.accumulate i [] (i + 1) q with
    | .incomplete k => (.noFrame, k)
    | .closed k staged => (s.validateBody staged, k)

/-- The RESULT code of an outcome (43_decoder.md R189, 10_state.md R25). -/
def DecodeOutcome.result : DecodeOutcome → Result
  | .noFrame => .noFrame
  | .emptyFrame => .emptyFrame
  | .corruptedDelimiter => .corruptedDelimiter
  | .integrityCheckFailed _ => .integrityCheckFailed
  | .frame _ _ => .frame

/-- The payload written to OBUF: empty but on FRAME (43_decoder.md R189). -/
def DecodeOutcome.payload : DecodeOutcome → List Byte
  | .noFrame => []
  | .emptyFrame => []
  | .corruptedDelimiter => []
  | .integrityCheckFailed _ => []
  | .frame P _ => P

/-- The value REM takes: on FRAME and INTEGRITY_CHECK_FAILED only (43_decoder.md R189). -/
def DecodeOutcome.rem? : DecodeOutcome → Option Nat
  | .noFrame => none
  | .emptyFrame => none
  | .corruptedDelimiter => none
  | .integrityCheckFailed r => some r
  | .frame _ r => some r

/-- REM takes the value an outcome carries, or keeps its own (43_decoder.md R189). -/
def State.setRem? (s : State) : Option Nat → State
  | none => s
  | some r => s.setRem r

/-- What a decoder call leaves: the first `k` bytes gone from RXQ, the payload in OBUF, REM where the outcome carries a
value, and the outcome in RESULT (43_decoder.md R189). -/
def State.settle (s : State) (o : DecodeOutcome) (k : Nat) : State :=
  (((s.consume k).setOutput o.payload).setRem? o.rem?).accept o.result

/-- RXPUSH, by the Line agent or by a Host write of RXDATA (43_decoder.md R181). -/
def execRxpush (b : Byte) (s : State) : Host.Outcome State Fault Refusal := .next (s.push b)

/-- DECODE (43_decoder.md R189). -/
def execDecode (s : State) : Host.Outcome State Fault Refusal :=
  .next <| s.command .decode fun s => s.settle (s.decodeStep s.rxq).1 (s.decodeStep s.rxq).2

/-- RXFLUSH (43_decoder.md R194). -/
def execRxflush (s : State) : Host.Outcome State Fault Refusal := .next ((s.consume s.rxq.length).accept .ok)

end Sys2Proof.Machine
end

