-- ==== Sys2Proof/Machine/Dispatch.lean ====
section
/-! DEFINITION. exec: one arm per operation of the opcode table, each a direct call of its meaning. -/

namespace Sys2Proof.Machine

def exec (i : Instr) (s : State) : Host.Outcome State Fault Refusal :=
  match i with
  | .nop => Sys2Proof.Machine.execNop s
  | .crcEnc n => Sys2Proof.Machine.execCrcEnc n s
  | .crcVal n => Sys2Proof.Machine.execCrcVal n s
  | .parEnc n => Sys2Proof.Machine.execParEnc n s
  | .parVal n => Sys2Proof.Machine.execParVal n s
  | .stuff n => Sys2Proof.Machine.execStuff n s
  | .build n => Sys2Proof.Machine.execBuild n s
  | .decode => Sys2Proof.Machine.execDecode s
  | .rxflush => Sys2Proof.Machine.execRxflush s
  | .rxpush b => Sys2Proof.Machine.execRxpush b s
  | .srst => Sys2Proof.Machine.execSrst s

end Sys2Proof.Machine
end

