-- ==== Sys2Proof/Machine/Step.lean ====
section
/-! DEFINITION. One step of the machine: the next step of an agent, performed whole (20_memory.md R71, R72). -/

namespace Sys2Proof.Machine

/-- One indivisible step (20_memory.md R71): take the first pending agent step, and perform the operation it selects, if
it selects one. -/
def step (s : State) : Host.Outcome State Fault Refusal :=
  match s.fetch with
  | .run i s' => exec i s'
  | .done s' => .next s'

/-- `s` with a Host write of the table bits `w` to CMD as the very next agent step (30_encoding.md R90; assumption
log 5). -/
def State.withFetchWord (s : State) (nbits w : Nat) : State :=
  { s with inputs := .hostWrite 0x008 (.w32 (BitVec.ofNat 32 (w % 2 ^ nbits))) :: s.inputs }

end Sys2Proof.Machine
end

