-- ==== Sys2Proof/Safety.lean ====
section
/-! DEFINITION. What a safe run is, in the terms the statements use: the invariant every step keeps, the parts of the
state a step leaves unchanged, and the Host's ways of driving the receive queue. -/

namespace Sys2Proof.Machine

/-- The facts that hold at reset and after every step: the buffers are in canonical form and inside their regions, OBUF
lists only valid output, the counts keep their bounds (10_state.md R20, R32, R38), and ERRCODE is nonzero exactly on
CMD_ERROR (10_state.md R26). The canonical form is the model's own (assumption log 2). -/
structure State.Inv (s : State) : Prop where
  ibufWf : s.ibuf.wf = true
  ibufWithin : s.ibuf.within Config.ibufBase (Config.ibufBase + Config.ibufSize) = true
  obufWf : s.obuf.wf = true
  obufWithin : s.obuf.within Config.obufBase (Config.obufBase + s.olen) = true
  olenBound : s.olen ≤ Config.obufSize
  rxqBound : s.rxq.length ≤ Config.rxqDepth
  consumedBound : s.consumed ≤ Config.rxqDepth
  errcodeOnError : s.errcode ≠ .none ↔ s.result = .cmdError

/-- CTRL.SCHEME, G and the three tags are unchanged. -/
def SameConfig (s t : State) : Prop :=
  t.scheme = s.scheme ∧ t.gen = s.gen ∧ t.tagStart = s.tagStart ∧ t.tagStop = s.tagStop ∧ t.tagEsc = s.tagEsc

/-- RXQ, CONSUMED and RX_OVF are unchanged. -/
def SameReceive (s t : State) : Prop := t.rxq = s.rxq ∧ t.consumed = s.consumed ∧ t.rxOvf = s.rxOvf

/-- The agents' steps to come and the value of the last bus read are unchanged. -/
def SameAgents (s t : State) : Prop := t.inputs = s.inputs ∧ t.readData = s.readData

/-- An offset of the OBUF region (20_memory.md R61). -/
def InObuf (a : Nat) : Prop := 0x200 ≤ a ∧ a < 0x300

/-- Every byte of memory outside OBUF is unchanged. -/
def SameMemoryButObuf (s t : State) : Prop := ∀ a, ¬ InObuf a → t.memByte a = s.memByte a

/-- The output of a command: OLEN counts the bytes and OBUF[0..OLEN) holds them, at 0x200 up. -/
def OutputIs (t : State) (out : List Byte) : Prop :=
  t.olen = out.length ∧ ∀ i, (h : i < out.length) → t.memByte (0x200 + i) = out[i]

/-- STATUS after an accepted command: this RESULT, and ERRCODE = NONE. -/
def Reports (t : State) (r : Result) : Prop := t.result = r ∧ t.errcode = .none

/-- The tags are pairwise distinct and, under the CRC scheme, the generator is legal: what DECODE and BUILD need of the
configuration (60_exceptions.md R254). -/
def FrameConfigOk (s : State) : Prop :=
  (s.tagStart ≠ s.tagStop ∧ s.tagStart ≠ s.tagEsc ∧ s.tagStop ≠ s.tagEsc) ∧ (s.scheme = .crc → 2 ≤ s.G)

/-- One piece of the wire form between delimiters: a byte as it is, or an ESC with the byte it escapes (43_decoder.md
R184, R185). -/
inductive Piece where
  | plain (b : Byte)
  | escaped (b : Byte)
deriving DecidableEq, Repr

/-- The bytes of a piece on the wire: an escaped byte, whatever it is, stands behind an ESC. -/
def State.wirePiece (s : State) : Piece → List Byte
  | .plain b => [b]
  | .escaped b => [s.tagEsc, b]

/-- The bytes of consecutive pieces on the wire. -/
def State.wirePieces (s : State) (ps : List Piece) : List Byte := ps.flatMap s.wirePiece

/-- The byte a piece stands for: what the decoder stages of it (43_decoder.md R185). -/
def Piece.byte : Piece → Byte
  | .plain b => b
  | .escaped b => b

/-- A piece of a frame body: a byte as it is must be no tag (43_decoder.md R185). -/
def State.IsBody (s : State) : Piece → Prop
  | .plain b => b ≠ s.tagStart ∧ b ≠ s.tagStop ∧ b ≠ s.tagEsc
  | .escaped _ => True

/-- A piece of garbage: a byte as it is must be neither START nor ESC (43_decoder.md R184). -/
def State.IsGarbage (s : State) : Piece → Prop
  | .plain b => b ≠ s.tagStart ∧ b ≠ s.tagEsc
  | .escaped _ => True

/-- What lies before the last candidate of a queue: garbage, then candidates each cut short by the START of the next
(43_decoder.md R184, R186). -/
def State.beforeCandidate (s : State) (g : List Piece) (cs : List (List Piece)) : List Byte :=
  s.wirePieces g ++ cs.flatMap fun ps => s.tagStart :: s.wirePieces ps

/-- Operations performed one after the other, as far as each answers a next state. -/
def execAll : List Instr → State → Option State
  | [], s => some s
  | i :: is, s =>
    match exec i s with
    | .next t => execAll is t
    | .fault _ => none
    | .refused _ => none

/-- One outcome of DECODE as the Host sees it: RESULT and the payload bytes in OBUF[0..OLEN). -/
abbrev Delivery := Result × List Byte

/-- The Host issues DECODE until it returns NOFRAME, at most `fuel` times, and collects the other outcomes
(43_decoder.md R192). -/
def drain : Nat → State → List Delivery × State
  | 0, s => ([], s)
  | fuel + 1, s =>
    match exec .decode s with
    | .next t =>
      if t.result = .noFrame then ([], t)
      else
        match drain fuel t with
        | (ds, u) => ((t.result, t.obuf.readBytes Config.obufBase t.olen) :: ds, u)
    | .fault _ => ([], s)
    | .refused _ => ([], s)

/-- The Host pushes a whole stream, then issues DECODE until NOFRAME (43_decoder.md R192). -/
def feedWhole (s : State) (bs : List Byte) : List Delivery :=
  (drain (s.rxq.length + bs.length + 1) (bs.foldl State.push s)).1

/-- The Host pushes a stream one byte at a time and issues DECODE until NOFRAME after each (43_decoder.md R192). -/
def feedByteByByte : State → List Byte → List Delivery
  | _, [] => []
  | s, b :: bs =>
    match drain ((s.push b).rxq.length + 1) (s.push b) with
    | (ds, t) => ds ++ feedByteByByte t bs

end Sys2Proof.Machine
end

