-- ==== Sys2Proof/Certificates/Slice0/Obligations.lean ====
section
/-! DEFINITION. The statements for the provers. -/

open Sys2Proof Sys2Proof.Machine

/-! ### Encoding -/

/-- Decode and encode agree: the word that encodes a well-formed operation, in the operation's format, decodes to it,
with LEN at every value of its 16 bits and the pushed byte at every value (30_encoding.md R91, R93, R96 to R98). -/
def Obligations.DecodeOfEncodeGivesTheOperation : Prop :=
  ∀ i : Instr, i.wellFormed = true → decode i.format (encode i) = .instr i

/-- Each accepted command word has one meaning: a word that decodes to an operation is that operation's only encoding
(30_encoding.md R91, R93). -/
def Obligations.CommandWordIsTheOneEncodingOfItsOperation : Prop :=
  ∀ (w : Word) (i : Instr), decode .cmd w = .instr i → encode i = w ∧ i.format = .cmd ∧ i.wellFormed = true

/-- The decoding procedure of 30_encoding.md R95 on every 32-bit word, from the word's value: OPCODE is w mod 256, RSVD
the next byte, LEN the upper half. -/
def Obligations.CommandDecodingFollowsTheProcedure : Prop :=
  ∀ (w : Word) (op rsv n : Nat), op = w.toNat % 256 → rsv = w.toNat / 256 % 256 → n = w.toNat / 65536 →
    if 8 < op then decode .cmd w = .reject .illegalOpcode
    else if rsv ≠ 0 then decode .cmd w = .reject .reservedField
    else if (op = 0 ∨ op = 7 ∨ op = 8) ∧ n ≠ 0 then decode .cmd w = .reject .reservedField
    else ∃ i, [Instr.nop, .crcEnc n, .crcVal n, .parEnc n, .parVal n, .stuff n, .build n, .decode, .rxflush][op]? = some i
      ∧ decode .cmd w = .instr i

/-- Words of the assembler table of 30_encoding.md R98 and of the examples of R93 decode to their commands. -/
def Obligations.ListedCommandWordsDecode : Prop :=
  decode .cmd 0x00000000 = .instr .nop ∧ decode .cmd 0x00020001 = .instr (.crcEnc 2)
    ∧ decode .cmd 0x00040002 = .instr (.crcVal 4) ∧ decode .cmd 0x00020006 = .instr (.build 2)
    ∧ decode .cmd 0x00000007 = .instr .decode ∧ decode .cmd 0x00000008 = .instr .rxflush
    ∧ decode .rxdata 0xFFFFFF41 = .instr (.rxpush 0x41) ∧ decode .ctrl 0x00000003 = .instr .srst

/-! ### The step -/

/-- A step runs the decoded operation: when the next agent step is a Host write whose bytes decode to an operation, the
step is that operation's meaning from the state without that write (44_control.md R220). That the agents' steps stand in
State is the model's choice (assumption log 1). -/
def Obligations.StepRunsTheDecodedOperation : Prop :=
  ∀ (s : State) (off : Offset) (v : BusValue) (rest : List Input) (i : Instr),
    s.inputs = .hostWrite off v :: rest → decodeWrite off v = .instr i → step s = exec i { s with inputs := rest }

/-- Every operation reaches the machine: the 32-bit write of its word to the register of its format performs it
(30_encoding.md R98). -/
def Obligations.WritingTheEncodedWordRunsTheOperation : Prop :=
  ∀ (s : State) (rest : List Input) (i : Instr), i.wellFormed = true →
    step { s with inputs := .hostWrite (portOf i.format).offset (.w32 (encode i)) :: rest }
      = exec i { s with inputs := rest }

/-- A 32-bit write of w to RXDATA pushes w[7:0]; one to CTRL is a soft reset when w[1] = 1 and otherwise sets SCHEME to
w[0] and changes nothing else (30_encoding.md R96, R97; 44_control.md R223). -/
def Obligations.RxdataAndCtrlWritesPushAndReset : Prop :=
  ∀ (s : State) (rest : List Input) (w : Word),
    step { s with inputs := .hostWrite 0x028 (.w32 w) :: rest }
        = exec (.rxpush (BitVec.ofNat 8 (w.toNat % 256))) { s with inputs := rest }
      ∧ if w.toNat / 2 % 2 = 1 then
          step { s with inputs := .hostWrite 0x000 (.w32 w) :: rest } = exec .srst { s with inputs := rest }
        else
          step { s with inputs := .hostWrite 0x000 (.w32 w) :: rest }
            = .next { s with inputs := rest, scheme := if w.toNat % 2 = 1 then .parity else .crc }

/-- A word written to CMD that does not decode is rejected: RESULT is CMD_ERROR, ERRCODE its reason, and nothing else
changes (30_encoding.md R94; 60_exceptions.md R253). -/
def Obligations.UndecodableCommandWordOnlyWritesStatus : Prop :=
  ∀ (s : State) (rest : List Input) (w : Word) (op rsv n : Nat),
    op = w.toNat % 256 → rsv = w.toNat / 256 % 256 → n = w.toNat / 65536 →
    if 8 < op then
      step { s with inputs := .hostWrite 0x008 (.w32 w) :: rest }
        = .next { s with inputs := rest, result := .cmdError, errcode := .illegalOpcode }
    else if rsv ≠ 0 ∨ ((op = 0 ∨ op = 7 ∨ op = 8) ∧ n ≠ 0) then
      step { s with inputs := .hostWrite 0x008 (.w32 w) :: rest }
        = .next { s with inputs := rest, result := .cmdError, errcode := .reservedField }
    else True

/-- The steps that are no bus access: a Line push is RXPUSH, the reset input has the effect of SRST, and with no agent
step pending the block holds its state (43_decoder.md R181; 70_reset_and_hazards.md R280; 60_exceptions.md R263). That a
step with nothing pending is a step at all is the model's choice (assumption log 1). -/
def Obligations.StepsThatAreNoBusAccess : Prop :=
  (∀ (s : State) (b : Byte) (rest : List Input),
      step { s with inputs := .linePush b :: rest } = exec (.rxpush b) { s with inputs := rest })
    ∧ (∀ (s : State) (rest : List Input),
      step { s with inputs := .hwReset :: rest } = exec .srst { s with inputs := rest })
    ∧ ∀ s : State, s.inputs = [] → step s = .next s

/-- No condition stops the block: every step of every state answers a next state (60_exceptions.md R250). -/
def Obligations.EveryStepAnswersANextState : Prop := ∀ s : State, ∃ t, step s = .next t

/-- Steps are taken one by one in the agents' total order: each takes exactly the first pending one (20_memory.md R72).
That the order stands in State as a list is the model's choice (assumption log 1). -/
def Obligations.StepsTakeTheInputsInOrder : Prop := ∀ s t : State, step s = .next t → t.inputs = s.inputs.tail

/-- The invariant of Safety.lean is kept by every step from every state that meets it: canonical buffers inside their
regions, OLEN at most 256, the queue and CONSUMED within RXQ_DEPTH, ERRCODE nonzero exactly on CMD_ERROR. The canonical
form is the model's choice (assumption log 2). -/
def Obligations.EveryStepKeepsTheInvariant : Prop := ∀ s t : State, s.Inv → step s = .next t → t.Inv

/-- The state after reset meets the invariant, whatever draw of unspecified bytes it stands at (assumption log 2). -/
def Obligations.ResetMeetsTheInvariant : Prop :=
  State.reset.Inv ∧ ∀ d d' n : Nat, State.Inv { State.reset with ibuf := ⟨d, []⟩, obuf := ⟨d', []⟩, draws := n }

/-! ### Rules about every operation or every step -/

/-- No command changes CTRL, GEN_LO, GEN_HI, TAGS, IBUF or STATUS.RX_OVF (44_control.md R221). -/
def Obligations.NoCommandChangesConfigurationOrInput : Prop :=
  ∀ (i : Instr) (s t : State), i.format = .cmd → exec i s = .next t →
    SameConfig s t ∧ t.rxOvf = s.rxOvf ∧ SameAgents s t ∧ SameMemoryButObuf s t

/-- RX_OVF is set only by a push that finds the queue full, and cleared only by a write of STATUS with bit 8 set or by a
reset (10_state.md R40). -/
def Obligations.OverflowFlagChangesOnlyAsStated : Prop :=
  ∀ (s t : State) (x : Input) (rest : List Input), s.inputs = x :: rest → step s = .next t →
    (s.rxOvf = false → t.rxOvf = true →
      Config.rxqDepth ≤ s.rxq.length ∧ ((∃ b, x = .linePush b) ∨ ∃ w, x = .hostWrite 0x028 (.w32 w)))
    ∧ (s.rxOvf = true → t.rxOvf = false →
      x = .hwReset ∨ (∃ w, x = .hostWrite 0x000 (.w32 w) ∧ w.getLsbD 1 = true)
        ∨ ∃ w, x = .hostWrite 0x004 (.w32 w) ∧ w.getLsbD 8 = true)

/-- RESULT and ERRCODE are written by commands and by nothing else except reset (10_state.md R40). -/
def Obligations.ResultChangesOnlyByCommandOrReset : Prop :=
  ∀ (s t : State) (x : Input) (rest : List Input), s.inputs = x :: rest → step s = .next t →
    (t.result ≠ s.result ∨ t.errcode ≠ s.errcode) →
      (∃ w, x = .hostWrite 0x008 (.w32 w)) ∨ x = .hwReset ∨ ∃ w, x = .hostWrite 0x000 (.w32 w) ∧ w.getLsbD 1 = true

/-- No step inserts, reorders or changes a byte inside RXQ: a step appends one byte at the back or removes a prefix,
which may be empty (10_state.md R38; 43_decoder.md R180). -/
def Obligations.QueueChangesOnlyByAppendOrPrefixRemoval : Prop :=
  ∀ s t : State, step s = .next t → (∃ b, t.rxq = s.rxq ++ [b]) ∨ ∃ k, t.rxq = s.rxq.drop k

/-! ### Reset, NOP and command errors -/

/-- The state after reset holds the values of 70_reset_and_hazards.md R281, and STATUS and TAGS read as 10_state.md R24
and R29 say. The numbers of the three tags are the ones the spec marks as general knowledge (assumption log 10,
PRESUMED), and the word of CFGINFO is an inference R281 marks as derived. -/
def Obligations.ResetStateHoldsTheStatedValues : Prop :=
  State.reset.scheme = .crc ∧ State.reset.result = .ok ∧ State.reset.errcode = .none ∧ State.reset.rxOvf = false
    ∧ State.reset.G = 0 ∧ State.reset.tagStart = 0x7B ∧ State.reset.tagStop = 0x7D ∧ State.reset.tagEsc = 0x5C
    ∧ State.reset.rem = 0 ∧ State.reset.olen = 0 ∧ State.reset.consumed = 0 ∧ State.reset.rxq = []
    ∧ State.reset.readReg .rxCount = 0 ∧ State.reset.readReg .cfgInfo = 0x00020000
    ∧ State.reset.readReg .status = 0x00000200 ∧ State.reset.readReg .tags = 0x005C7D7B

/-- SRST answers a next state in which every component has its reset value. Every byte of both buffers is unspecified,
so nothing is said of them (44_control.md R224; 70_reset_and_hazards.md R281). The numbers of the three tags are the
ones the spec marks as general knowledge (assumption log 10, PRESUMED), the word of CFGINFO is an inference R281 marks
as derived, and that the agents' steps to come and the last read value stay is the model's choice (assumption log 8,
DESIGN CHOICE). -/
def Obligations.SoftResetSetsEveryComponent : Prop :=
  ∀ s : State, ∃ t, exec .srst s = .next t ∧ t.scheme = .crc ∧ t.result = .ok ∧ t.errcode = .none ∧ t.rxOvf = false
    ∧ t.G = 0 ∧ t.tagStart = 0x7B ∧ t.tagStop = 0x7D ∧ t.tagEsc = 0x5C ∧ t.rem = 0 ∧ t.olen = 0 ∧ t.consumed = 0
    ∧ t.rxq = [] ∧ t.readReg .cfgInfo = 0x00020000 ∧ t.readReg .status = 0x00000200 ∧ SameAgents s t

/-- NOP sets RESULT = OK and ERRCODE = NONE and changes nothing else (44_control.md R222). -/
def Obligations.NopReportsSuccessAndNothingElse : Prop :=
  ∀ s : State, exec .nop s = .next { s with result := .ok, errcode := .none }

/-- A LEN above 64 is rejected with BAD_LENGTH on each of the six commands that take one, whatever the generator and the
tags are, and nothing but STATUS changes (60_exceptions.md R253, R254). -/
def Obligations.OverlongLenIsRejectedBeforeAnythingElse : Prop :=
  ∀ (s : State) (n : Nat), 64 < n →
    ∀ i ∈ [Instr.crcEnc n, .crcVal n, .parEnc n, .parVal n, .stuff n, .build n],
      exec i s = .next { s with result := .cmdError, errcode := .badLength }

/-- An illegal generator is rejected with BAD_GENERATOR, before the tags are looked at, on every command that uses it
and nothing but STATUS changes (60_exceptions.md R253, R254). -/
def Obligations.IllegalGeneratorIsRejected : Prop :=
  ∀ (s : State) (n : Nat), n ≤ 64 → s.G < 2 →
    (∀ i ∈ [Instr.crcEnc n, .crcVal n], exec i s = .next { s with result := .cmdError, errcode := .badGenerator })
    ∧ (s.scheme = .crc →
      ∀ i ∈ [Instr.build n, .decode], exec i s = .next { s with result := .cmdError, errcode := .badGenerator })

/-- Tags that are not distinct are rejected with BAD_TAGS on the three commands that use them, once the other checks
pass, and nothing but STATUS changes (60_exceptions.md R253, R254). -/
def Obligations.IndistinctTagsAreRejected : Prop :=
  ∀ (s : State) (n : Nat), n ≤ 64 → (s.tagStart = s.tagStop ∨ s.tagStart = s.tagEsc ∨ s.tagStop = s.tagEsc) →
    exec (.stuff n) s = .next { s with result := .cmdError, errcode := .badTags }
    ∧ ((s.scheme = .crc → 2 ≤ s.G) →
      ∀ i ∈ [Instr.build n, .decode], exec i s = .next { s with result := .cmdError, errcode := .badTags })

/-! ### CRC -/

/-- CRC.ENC completes for every LEN up to 64 and every legal generator: OBUF and OLEN hold the code, REM the remainder,
RESULT is OK, and everything else but the rest of OBUF is unchanged. CTRL.SCHEME and the tags play no part (40_crc.md
R121). -/
def Obligations.CrcEncWritesCodeAndRemainder : Prop :=
  ∀ (s : State) (n : Nat), n ≤ 64 → 2 ≤ s.G → ∃ t, exec (.crcEnc n) s = .next t
    ∧ OutputIs t (crcEncode s.G (s.input n)).2 ∧ t.rem.toNat = (crcEncode s.G (s.input n)).1 ∧ Reports t .ok
    ∧ SameConfig s t ∧ SameReceive s t ∧ SameAgents s t ∧ SameMemoryButObuf s t

/-- CRC.VAL completes for every LEN up to 64 and every legal generator: REM holds the remainder, OLEN is 0, RESULT is OK
exactly when the remainder is 0 and INTEGRITY_CHECK_FAILED otherwise, and everything else but OBUF is unchanged
(40_crc.md R118, R122). -/
def Obligations.CrcValReportsTheRemainder : Prop :=
  ∀ (s : State) (n : Nat), n ≤ 64 → 2 ≤ s.G → ∃ t, exec (.crcVal n) s = .next t
    ∧ t.olen = 0 ∧ t.rem.toNat = crcRemainder s.G (s.input n)
    ∧ Reports t (if crcRemainder s.G (s.input n) = 0 then .ok else .integrityCheckFailed)
    ∧ SameConfig s t ∧ SameReceive s t ∧ SameAgents s t ∧ SameMemoryButObuf s t

/-- The register bound of 40_crc.md R114, an inference the spec marks as its own, for a register below 2^d: the shifted
register is below 2^(d+1), the step subtracts the generator exactly when its bit d is set, its bit length is then d + 1
and the subtraction clears bit d, the register is below 2^d after the step, and every remainder is below 2^d. -/
def Obligations.RegisterStaysBelowTheDegree : Prop :=
  ∀ G : Nat, 1 ≤ G →
    (∀ (R : Nat) (b : Bool), R < 2 ^ degree G →
      (R <<< 1) ||| b.toNat < 2 ^ (degree G + 1)
        ∧ (bitlen ((R <<< 1) ||| b.toNat) ≥ degree G + 1 ↔ ((R <<< 1) ||| b.toNat).testBit (degree G) = true)
        ∧ (((R <<< 1) ||| b.toNat).testBit (degree G) = true →
          bitlen ((R <<< 1) ||| b.toNat) = degree G + 1
            ∧ (((R <<< 1) ||| b.toNat) ^^^ G).testBit (degree G) = false)
        ∧ divStep G R b < 2 ^ degree G)
    ∧ ∀ bits : List Bool, divBits G bits < 2 ^ degree G

/-- The division engine computes the remainder of polynomial division over GF(2): the bits read as a polynomial, the
first bit its leading coefficient, leave divBits modulo the generator's polynomial (40_crc.md R119, an inference the
spec marks as its own). -/
def Obligations.DivisionIsThePolynomialRemainder : Prop :=
  ∀ (G : Nat) (bits : List Bool), 1 ≤ G →
    (∑ i ∈ Finset.range (degree G), if (divBits G bits).testBit i then (Polynomial.X ^ i : Polynomial (ZMod 2)) else 0)
      = Polynomial.modByMonic (bits.foldl (fun p b => p * Polynomial.X + if b then 1 else 0) 0)
        (∑ i ∈ Finset.range (degree G + 1), if G.testBit i then (Polynomial.X ^ i : Polynomial (ZMod 2)) else 0)

/-- The code is the remainder moved up to fill whole bytes, most significant byte first, in ceil(d/8) bytes with zeros
at the low end (40_crc.md R115). -/
def Obligations.CrcCodeIsTheShiftedRemainder : Prop :=
  ∀ (G : Nat) (P : List Byte), 2 ≤ G →
    (crcEncode G P).1 = divBits G (bitsOf P ++ List.replicate (degree G) false)
    ∧ (crcEncode G P).2.length = (degree G + 7) / 8
    ∧ (crcEncode G P).2.foldl (fun a b => a * 256 + b.toNat) 0
      = (crcEncode G P).1 * 2 ^ (8 * ((degree G + 7) / 8) - degree G)

/-- A coded sequence is exactly divisible: for every legal generator and every payload, the payload followed by its code
leaves remainder 0 (40_crc.md R120, an inference the spec marks as its own). -/
def Obligations.CodedSequenceIsDivisible : Prop :=
  ∀ (G : Nat) (P : List Byte), 2 ≤ G → crcRemainder G (P ++ (crcEncode G P).2) = 0

/-- The remainder is linear: the remainder of the XOR of two sequences of equal length is the XOR of their remainders;
so a coded sequence altered by an error pattern stays valid exactly when the pattern's own remainder is 0 (40_crc.md
R123, an inference the spec marks as its own). -/
def Obligations.CrcRemainderIsLinear : Prop :=
  ∀ (G : Nat) (M E : List Byte), 2 ≤ G → M.length = E.length →
    crcRemainder G (List.zipWith (· ^^^ ·) M E) = crcRemainder G M ^^^ crcRemainder G E
    ∧ (crcRemainder G M = 0 → (crcRemainder G (List.zipWith (· ^^^ ·) M E) = 0 ↔ crcRemainder G E = 0))

/-- Every single-bit flip of a valid coded sequence is detected by every generator with two or more set bits (40_crc.md
R123, an inference the spec marks as its own). -/
def Obligations.SingleBitFlipIsDetectedByCrc : Prop :=
  ∀ (G : Nat) (M : List Byte) (i k a b : Nat), a < b → G.testBit a = true → G.testBit b = true → k < 8 →
    (h : i < M.length) → crcRemainder G M = 0 →
    crcRemainder G (M.set i (M[i] ^^^ BitVec.ofNat 8 (2 ^ k))) ≠ 0

/-- A single-term generator 2^d gives the code 0 for every payload, and the remainder of a sequence is the value of its
last d bits (40_crc.md R124, an inference the spec marks as its own). -/
def Obligations.SingleTermGeneratorKeepsTheLastBits : Prop :=
  ∀ (d : Nat) (M : List Byte), 1 ≤ d →
    crcEncode (2 ^ d) M = (0, List.replicate ((d + 7) / 8) 0)
    ∧ crcRemainder (2 ^ d) M = M.foldl (fun a b => a * 256 + b.toNat) 0 % 2 ^ d

/-! ### Parity -/

/-- PAR.ENC completes for every LEN up to 64: OBUF[0] and REM hold the parity of the input, OLEN is 1, RESULT is OK, and
everything else but the rest of OBUF is unchanged. Neither the generator nor the tags nor CTRL.SCHEME play a part
(41_parity.md R145). -/
def Obligations.ParEncWritesTheParity : Prop :=
  ∀ (s : State) (n : Nat), n ≤ 64 → ∃ t, exec (.parEnc n) s = .next t
    ∧ OutputIs t [BitVec.ofNat 8 (framesParity (s.input n))] ∧ t.rem.toNat = framesParity (s.input n) ∧ Reports t .ok
    ∧ SameConfig s t ∧ SameReceive s t ∧ SameAgents s t ∧ SameMemoryButObuf s t

/-- PAR.VAL completes for every LEN up to 64: REM holds the parity, OLEN is 0, RESULT is OK exactly when the parity is 0
and INTEGRITY_CHECK_FAILED otherwise, and everything else but OBUF is unchanged (41_parity.md R146). -/
def Obligations.ParValReportsTheParity : Prop :=
  ∀ (s : State) (n : Nat), n ≤ 64 → ∃ t, exec (.parVal n) s = .next t
    ∧ t.olen = 0 ∧ t.rem.toNat = framesParity (s.input n)
    ∧ Reports t (if framesParity (s.input n) = 0 then .ok else .integrityCheckFailed)
    ∧ SameConfig s t ∧ SameReceive s t ∧ SameAgents s t ∧ SameMemoryButObuf s t

/-- The parity is that of the total number of set bits, the parity of a concatenation is the XOR of the parities, and
the order of the bytes plays no part (41_parity.md R142). -/
def Obligations.ParityIsThatOfTheBitCount : Prop :=
  (∀ s : List Byte, framesParity s = (s.map popcount).sum % 2)
    ∧ (∀ s t : List Byte, framesParity (s ++ t) = framesParity s ^^^ framesParity t)
    ∧ ∀ s t : List Byte, s.Perm t → framesParity s = framesParity t

/-- The parity code is one byte, 0x00 or 0x01, and a payload followed by it has parity 0 (41_parity.md R143, R144). -/
def Obligations.ParityCodedSequenceIsEven : Prop :=
  ∀ P : List Byte, (parityCode P = [0x00] ∨ parityCode P = [0x01]) ∧ parityCode P = [BitVec.ofNat 8 (framesParity P)]
    ∧ framesParity (P ++ parityCode P) = 0

/-- An error pattern on a parity-coded sequence is detected exactly when the number of flipped bits is odd (41_parity.md
R147, an inference the spec marks as its own). -/
def Obligations.ParityDetectsExactlyOddErrors : Prop :=
  ∀ M E : List Byte, M.length = E.length → framesParity M = 0 →
    (framesParity (List.zipWith (· ^^^ ·) M E) ≠ 0 ↔ (E.map popcount).sum % 2 = 1)

/-! ### Stuffing and frames -/

/-- STUFF completes for every LEN up to 64 and distinct tags: each input byte that is a tag is written behind an ESC,
every other as it is; REM and everything else but the rest of OBUF is unchanged (42_stuff_build.md R161, R166). -/
def Obligations.StuffWritesTheEscapedBytes : Prop :=
  ∀ (s : State) (n : Nat), n ≤ 64 → (s.tagStart ≠ s.tagStop ∧ s.tagStart ≠ s.tagEsc ∧ s.tagStop ≠ s.tagEsc) →
    ∃ t, exec (.stuff n) s = .next t
    ∧ OutputIs t ((s.input n).flatMap fun b =>
        if b = s.tagStart ∨ b = s.tagStop ∨ b = s.tagEsc then [s.tagEsc, b] else [b])
    ∧ t.rem = s.rem ∧ Reports t .ok
    ∧ SameConfig s t ∧ SameReceive s t ∧ SameAgents s t ∧ SameMemoryButObuf s t

/-- The stuffed sequence is longer by the number of tag values in it, and so at most twice as long (42_stuff_build.md
R162, an inference the spec marks as its own). -/
def Obligations.StuffedLengthCountsTheTags : Prop :=
  ∀ (s : State) (bs : List Byte),
    (s.stuffed bs).length = bs.length + bs.countP (fun b => b == s.tagStart || b == s.tagStop || b == s.tagEsc)
    ∧ bs.length ≤ (s.stuffed bs).length ∧ (s.stuffed bs).length ≤ 2 * bs.length

/-- BUILD completes for every LEN up to 64, distinct tags and, under the CRC scheme, a legal generator: OBUF holds
START, the stuffed payload and code, STOP; REM the remainder or parity; everything else but the rest of OBUF is
unchanged (42_stuff_build.md R163, R164, R167). -/
def Obligations.BuildWritesTheWireFrame : Prop :=
  ∀ (s : State) (n : Nat), n ≤ 64 → FrameConfigOk s → ∃ t, exec (.build n) s = .next t
    ∧ (match s.scheme with
      | .crc => OutputIs t ([s.tagStart] ++ s.stuffed (s.input n ++ (crcEncode s.G (s.input n)).2) ++ [s.tagStop])
          ∧ t.rem.toNat = (crcEncode s.G (s.input n)).1
      | .parity => OutputIs t ([s.tagStart]
            ++ s.stuffed (s.input n ++ [BitVec.ofNat 8 (framesParity (s.input n))]) ++ [s.tagStop])
          ∧ t.rem.toNat = framesParity (s.input n))
    ∧ Reports t .ok ∧ SameConfig s t ∧ SameReceive s t ∧ SameAgents s t ∧ SameMemoryButObuf s t

/-- STUFF writes at most 128 bytes and BUILD at most 138, so no output is truncated (42_stuff_build.md R168, an
inference the spec marks as its own). -/
def Obligations.OutputsFitTheBuffer : Prop :=
  ∀ (s t : State) (n : Nat), n ≤ 64 →
    (exec (.stuff n) s = .next t → t.result = .ok → t.olen ≤ 128)
    ∧ (exec (.build n) s = .next t → t.result = .ok → t.olen ≤ 138)

/-- With distinct tags a stuffed body is closed by the STOP behind it and by nothing in it, and undoing the escapes
gives the body back exactly, whatever follows (42_stuff_build.md R165, an inference the spec marks as its own). The same
holds of every wire body, also one that escapes bytes that are no tags: each byte behind an ESC is staged as it is
(43_decoder.md R185). -/
def Obligations.StuffedBodyIsRecoveredExactly : Prop :=
  ∀ (s : State) (rest : List Byte) (start j : Nat),
    (s.tagStart ≠ s.tagStop ∧ s.tagStart ≠ s.tagEsc ∧ s.tagStop ≠ s.tagEsc) →
    (∀ body : List Byte,
      s.accumulate start [] j (s.stuffed body ++ s.tagStop :: rest) = .closed (j + (s.stuffed body).length + 1) body)
    ∧ ∀ ps : List Piece, (∀ p ∈ ps, s.IsBody p) →
      s.accumulate start [] j (s.wirePieces ps ++ s.tagStop :: rest)
        = .closed (j + (s.wirePieces ps).length + 1) (ps.map Piece.byte)

/-! ### The receive queue and the decoder -/

/-- RXPUSH completes in every state: it appends its byte when the queue has room, and otherwise drops it and sets
RX_OVF; nothing else changes (43_decoder.md R181, R182). -/
def Obligations.PushAppendsOrDropsWithOverflow : Prop :=
  ∀ (s : State) (b : Byte),
    if s.rxq.length < Config.rxqDepth then exec (.rxpush b) s = .next { s with rxq := s.rxq ++ [b] }
    else exec (.rxpush b) s = .next { s with rxOvf := true }

/-- DECODE completes for distinct tags and, under the CRC scheme, a legal generator: one decoder call on RXQ, whose k
bytes leave the queue and are reported in CONSUMED; the payload goes to OBUF on FRAME and OLEN is 0 otherwise; REM is
written on FRAME and INTEGRITY_CHECK_FAILED only; the rest is unchanged (43_decoder.md R189). -/
def Obligations.DecodePerformsOneDecoderCall : Prop :=
  ∀ s : State, FrameConfigOk s → s.rxq.length ≤ Config.rxqDepth → ∃ t, exec .decode s = .next t
    ∧ (s.decodeStep s.rxq).2 ≤ s.rxq.length ∧ t.rxq = s.rxq.drop (s.decodeStep s.rxq).2
    ∧ t.consumed = (s.decodeStep s.rxq).2
    ∧ (match (s.decodeStep s.rxq).1 with
      | .noFrame => Reports t .noFrame ∧ t.olen = 0 ∧ t.rem = s.rem
      | .emptyFrame => Reports t .emptyFrame ∧ t.olen = 0 ∧ t.rem = s.rem
      | .corruptedDelimiter => Reports t .corruptedDelimiter ∧ t.olen = 0 ∧ t.rem = s.rem
      | .integrityCheckFailed r => Reports t .integrityCheckFailed ∧ t.olen = 0 ∧ t.rem.toNat = r
      | .frame P r => Reports t .frame ∧ OutputIs t P ∧ t.rem.toNat = r)
    ∧ SameConfig s t ∧ t.rxOvf = s.rxOvf ∧ SameAgents s t ∧ SameMemoryButObuf s t

/-- What one decoder call makes of a complete frame, whatever bytes its wire body escapes: EMPTY_FRAME for an empty
staged body, CORRUPTED_DELIMITER for one shorter than the code, INTEGRITY_CHECK_FAILED for one that does not validate,
and otherwise FRAME with the staged body less its code; all through the STOP is removed (43_decoder.md R185, R187,
R188). -/
def Obligations.DecoderJudgesTheStagedBody : Prop :=
  ∀ (s : State) (ps : List Piece) (body rest : List Byte),
    (s.tagStart ≠ s.tagStop ∧ s.tagStart ≠ s.tagEsc ∧ s.tagStop ≠ s.tagEsc) →
    (∀ p ∈ ps, s.IsBody p) → body = ps.map Piece.byte →
    s.decodeStep (s.tagStart :: s.wirePieces ps ++ s.tagStop :: rest)
      = (if body.length = 0 then .emptyFrame
          else if body.length < s.codeLen then .corruptedDelimiter
          else if s.schemeValidate body ≠ 0 then .integrityCheckFailed (s.schemeValidate body)
          else .frame (body.take (body.length - s.codeLen)) 0, (s.wirePieces ps).length + 2)

/-- Garbage is skipped: bytes that are neither START nor ESC, and an ESC together with the byte after it, are removed in
front of whatever the rest of the queue gives (43_decoder.md R184). -/
def Obligations.GarbageIsSkippedWithItsEscapes : Prop :=
  ∀ (s : State) (g Q : List Byte) (b : Byte),
    ((∀ c ∈ g, c ≠ s.tagStart ∧ c ≠ s.tagEsc) →
      s.decodeStep (g ++ Q) = ((s.decodeStep Q).1, (s.decodeStep Q).2 + g.length))
    ∧ (s.tagEsc ≠ s.tagStart →
      s.decodeStep (s.tagEsc :: b :: Q) = ((s.decodeStep Q).1, (s.decodeStep Q).2 + 2)
      ∧ s.decodeStep [s.tagEsc] = (.noFrame, 0))

/-- A START inside an open candidate discards what was staged, whatever its wire body escapes: the call goes on as if
the queue began with the new START, and that START is where the removal of a NOFRAME outcome ends (43_decoder.md R186;
90_conflicts.md C1). -/
def Obligations.SpuriousStartRestartsTheCandidate : Prop :=
  ∀ (s : State) (ps : List Piece) (Q : List Byte),
    (s.tagStart ≠ s.tagStop ∧ s.tagStart ≠ s.tagEsc ∧ s.tagStop ≠ s.tagEsc) → (∀ p ∈ ps, s.IsBody p) →
    s.decodeStep (s.tagStart :: s.wirePieces ps ++ s.tagStart :: Q)
      = ((s.decodeStep (s.tagStart :: Q)).1, (s.decodeStep (s.tagStart :: Q)).2 + (s.wirePieces ps).length + 1)

/-- Removal is exact: on every outcome but NOFRAME it ends one past a STOP; on NOFRAME at the end of the queue, before a
START or before a trailing ESC. With distinct tags, exactly where: NOFRAME removes all of a queue without a candidate
but a trailing ESC, and everything before the candidate when one is open, a trailing ESC in its body or not, however
long the queue is; a closed candidate is removed through the STOP that closes it, and judged by its staged body; and
every queue is of one of these forms (43_decoder.md R184, R185, R190, an inference the spec marks as its own). -/
def Obligations.RemovalEndsAfterStopOrBeforeTheCandidate : Prop :=
  ∀ (s : State) (Q : List Byte),
    (if (s.decodeStep Q).1 = .noFrame then
      (s.decodeStep Q).2 = Q.length ∨ Q[(s.decodeStep Q).2]? = some s.tagStart
        ∨ (Q[(s.decodeStep Q).2]? = some s.tagEsc ∧ (s.decodeStep Q).2 + 1 = Q.length)
    else 2 ≤ (s.decodeStep Q).2 ∧ Q[(s.decodeStep Q).2 - 1]? = some s.tagStop)
    ∧ ((s.tagStart ≠ s.tagStop ∧ s.tagStart ≠ s.tagEsc ∧ s.tagStop ≠ s.tagEsc) →
      ∃ (g : List Piece) (tail : List Byte), (∀ p ∈ g, s.IsGarbage p) ∧
        ((Q = s.wirePieces g ++ tail ∧ (tail = [] ∨ tail = [s.tagEsc])
            ∧ s.decodeStep Q = (.noFrame, (s.wirePieces g).length))
          ∨ ∃ (cs : List (List Piece)) (ps : List Piece), (∀ c ∈ cs, ∀ p ∈ c, s.IsBody p) ∧ (∀ p ∈ ps, s.IsBody p)
            ∧ Q = s.beforeCandidate g cs ++ s.tagStart :: s.wirePieces ps ++ tail
            ∧ (((tail = [] ∨ tail = [s.tagEsc]) ∧ s.decodeStep Q = (.noFrame, (s.beforeCandidate g cs).length))
              ∨ ∃ rest, tail = s.tagStop :: rest
                ∧ s.decodeStep Q = (s.validateBody (ps.map Piece.byte),
                    (s.beforeCandidate g cs).length + (s.wirePieces ps).length + 2))))
    ∧ ((s.tagStart ≠ s.tagStop ∧ s.tagStart ≠ s.tagEsc ∧ s.tagStop ≠ s.tagEsc) →
      ∀ ps : List Piece, (∀ p ∈ ps, s.IsBody p) →
        s.decodeStep (s.tagStart :: s.wirePieces ps) = (.noFrame, 0)
          ∧ s.decodeStep (s.tagStart :: s.wirePieces ps ++ [s.tagEsc]) = (.noFrame, 0))

/-- No corrupted payload is delivered: a FRAME outcome carries the staged body of the candidate that phase 2 closed,
less its code, and that very staged body passed the scheme's validation. With distinct tags the staged body is what the
wire body of that candidate stands for, the bytes between its START and the STOP that ends the removal (43_decoder.md
R184 to R186, R188; R193, an inference the spec marks as its own). -/
def Obligations.DeliveredPayloadIsValidated : Prop :=
  ∀ (s : State) (Q P : List Byte) (r k : Nat), s.decodeStep Q = (.frame P r, k) →
    ∃ i q staged, s.seekStart 0 Q = .found i q ∧ s.accumulate i [] (i + 1) q = .closed k staged
      ∧ staged ≠ [] ∧ s.codeLen ≤ staged.length ∧ s.schemeValidate staged = 0 ∧ r = 0
      ∧ P = staged.take (staged.length - s.codeLen)
      ∧ ((s.tagStart ≠ s.tagStop ∧ s.tagStart ≠ s.tagEsc ∧ s.tagStop ≠ s.tagEsc) →
        ∃ (g : List Piece) (cs : List (List Piece)) (ps : List Piece),
          (∀ p ∈ g, s.IsGarbage p) ∧ (∀ c ∈ cs, ∀ p ∈ c, s.IsBody p) ∧ (∀ p ∈ ps, s.IsBody p)
            ∧ Q.take k = s.beforeCandidate g cs ++ s.tagStart :: s.wirePieces ps ++ [s.tagStop]
            ∧ staged = ps.map Piece.byte)

/-- The decoder keeps nothing between calls: on equal queues and configurations, whatever else differs, DECODE gives the
same RESULT, ERRCODE, CONSUMED, RXQ, OLEN, payload and, where it writes it, REM (43_decoder.md R191, an inference the
spec marks as its own). -/
def Obligations.DecodeDependsOnQueueAndConfigurationAlone : Prop :=
  ∀ s s' : State, SameConfig s s' → s'.rxq = s.rxq → FrameConfigOk s →
    ∃ t t', exec .decode s = .next t ∧ exec .decode s' = .next t'
      ∧ t'.result = t.result ∧ t'.errcode = t.errcode ∧ t'.consumed = t.consumed ∧ t'.rxq = t.rxq ∧ t'.olen = t.olen
      ∧ t'.obuf.readBytes 0x200 t'.olen = t.obuf.readBytes 0x200 t.olen
      ∧ (t.result = .frame ∨ t.result = .integrityCheckFailed → t'.rem = t.rem)

/-- Incremental equivalence: with a legal configuration, an empty queue and a stream that fits it, pushing the whole
stream and then decoding until NOFRAME delivers the same outcomes with the same payloads as decoding until NOFRAME after
each pushed byte (43_decoder.md R192, an inference the spec marks as its own). Under a configuration DECODE rejects no
NOFRAME ever comes, so it is left out here: its rejection is stated by IllegalGeneratorIsRejected and
IndistinctTagsAreRejected. -/
def Obligations.FeedingByteByByteDeliversTheSameFrames : Prop :=
  ∀ (s : State) (bs : List Byte), FrameConfigOk s → s.rxq = [] → bs.length ≤ Config.rxqDepth →
    feedByteByByte s bs = feedWhole s bs

/-- Round trip: with a legal configuration and an empty queue, pushing the bytes BUILD wrote for a payload of up to 64
bytes and issuing DECODE gives FRAME with that payload, CONSUMED equal to BUILD's OLEN and an empty queue (43_decoder.md
R195, an inference the spec marks as its own). -/
def Obligations.BuildThenDecodeReturnsThePayload : Prop :=
  ∀ (s : State) (n : Nat), n ≤ 64 → FrameConfigOk s → s.rxq = [] →
    ∃ t u v, exec (.build n) s = .next t
      ∧ execAll ((t.obuf.readBytes 0x200 t.olen).map .rxpush) t = some u
      ∧ exec .decode u = .next v
      ∧ Reports v .frame ∧ OutputIs v (s.input n) ∧ v.consumed = t.olen ∧ v.rxq = []

/-- A full queue that holds a candidate without a STOP, whatever its wire body escapes and with a trailing ESC or not,
stalls: DECODE returns NOFRAME and removes nothing, and every push is dropped with RX_OVF set (70_reset_and_hazards.md
R288, an inference the spec marks as its own). -/
def Obligations.FullQueueWithAnOpenCandidateStalls : Prop :=
  ∀ (s : State) (ps : List Piece) (tail : List Byte), FrameConfigOk s → (∀ p ∈ ps, s.IsBody p) →
    tail = [] ∨ tail = [s.tagEsc] → s.rxq = s.tagStart :: s.wirePieces ps ++ tail →
    s.rxq.length = Config.rxqDepth →
    (∃ t, exec .decode s = .next t ∧ Reports t .noFrame ∧ t.consumed = 0 ∧ t.rxq = s.rxq)
    ∧ ∀ b : Byte, ∃ t, exec (.rxpush b) s = .next t ∧ t.rxOvf = true ∧ t.rxq = s.rxq

/-- RXFLUSH completes in every state: RXQ is emptied, CONSUMED holds its old length, RESULT is OK, and nothing else
changes, RX_OVF included (43_decoder.md R194). -/
def Obligations.RxflushEmptiesTheQueue : Prop :=
  ∀ s : State, exec .rxflush s
    = .next { s with rxq := [], consumed := s.rxq.length, result := .ok, errcode := .none }

/-! ### The register window -/

/-- No read has a side effect: a read at any offset and width changes nothing of the block, only what the Host reads
(20_memory.md R68). That the value read stands in State is the model's choice (assumption log 4). -/
def Obligations.ReadsChangeNoStateOfTheBlock : Prop :=
  ∀ (s : State) (off : Offset) (n : BusSize) (rest : List Input),
    step { s with inputs := .hostRead off n :: rest }
      = .next { s with inputs := rest, readData := some (s.readValue off n) }

/-- A legal 32-bit read of each of the twelve offsets returns the register there (10_state.md R22; 44_control.md R229).
CTRL reads SCHEME in bit 0 and 0 elsewhere (R23); STATUS its five fields at their places, with the numbers of RESULT and
ERRCODE, and 0 above (R24 to R26); GEN_LO and GEN_HI the two parts of G (R27); CFGINFO its five fields (R28); TAGS, REM,
OLEN, RXCOUNT and CONSUMED as R29 and R31 to R35 place them; CMD and RXDATA read 0. -/
def Obligations.RegistersReadTheirFields : Prop :=
  ∀ s : State,
    (∀ p ∈ [((0x000 : Offset), Reg.ctrl), (0x004, .status), (0x008, .cmd), (0x00C, .genLo), (0x010, .genHi), (0x014, .tags),
        (0x018, .cfgInfo), (0x01C, .rem), (0x020, .olen), (0x024, .rxCount), (0x028, .rxData), (0x02C, .consumed)],
      s.readValue p.1 .word = .w32 (s.readReg p.2))
    ∧ (s.Inv →
      (s.readReg .ctrl).toNat = (match s.scheme with | .crc => 0 | .parity => 1)
      ∧ (s.readReg .status).toNat =
        (match s.result with
          | .ok => 0 | .noFrame => 1 | .frame => 2 | .emptyFrame => 3 | .corruptedDelimiter => 4
          | .integrityCheckFailed => 5 | .cmdError => 6)
        + 16 * (match s.errcode with
          | .none => 0 | .illegalOpcode => 1 | .reservedField => 2 | .badLength => 3 | .badGenerator => 4 | .badTags => 5)
        + (if s.rxOvf then 256 else 0) + (if s.rxq = [] then 512 else 0)
        + (if s.rxq.length = Config.rxqDepth then 1024 else 0)
      ∧ (s.readReg .genLo).toNat = s.G % 2 ^ 32 ∧ (s.readReg .genHi).toNat = s.G / 2 ^ 32
      ∧ (s.readReg .cfgInfo).toNat = (if s.G = 0 then 0 else Nat.log2 s.G)
        + 256 * (((if s.G = 0 then 0 else Nat.log2 s.G) + 7) / 8) + (if 2 ≤ s.G then 65536 else 0)
        + (if s.tagStart ≠ s.tagStop ∧ s.tagStart ≠ s.tagEsc ∧ s.tagStop ≠ s.tagEsc then 131072 else 0)
        + 16777216 * (if s.scheme = .crc then ((if s.G = 0 then 0 else Nat.log2 s.G) + 7) / 8 else 1)
      ∧ (s.readReg .tags).toNat = s.tagStart.toNat + 256 * s.tagStop.toNat + 65536 * s.tagEsc.toNat
      ∧ s.readReg .rem = s.rem ∧ (s.readReg .olen).toNat = s.olen ∧ (s.readReg .rxCount).toNat = s.rxq.length
      ∧ (s.readReg .consumed).toNat = s.consumed ∧ s.readReg .cmd = 0 ∧ s.readReg .rxData = 0)

/-- A legal write of w to GEN_LO sets G[31:0] to w, one to GEN_HI sets G[32] to w[0], one to TAGS sets the three tags,
and one to STATUS clears RX_OVF when w[8] = 1; nothing else changes (44_control.md R225 to R227). -/
def Obligations.ConfigurationWritesSetTheirFields : Prop :=
  ∀ (s : State) (rest : List Input) (w : Word),
    (∃ t, step { s with inputs := .hostWrite 0x00C (.w32 w) :: rest } = .next t
      ∧ t = { s with inputs := rest, gen := t.gen } ∧ t.G = s.G / 2 ^ 32 * 2 ^ 32 + w.toNat)
    ∧ (∃ t, step { s with inputs := .hostWrite 0x010 (.w32 w) :: rest } = .next t
      ∧ t = { s with inputs := rest, gen := t.gen } ∧ t.G = w.toNat % 2 * 2 ^ 32 + s.G % 2 ^ 32)
    ∧ step { s with inputs := .hostWrite 0x014 (.w32 w) :: rest }
      = .next { s with inputs := rest, tagStart := BitVec.ofNat 8 w.toNat, tagStop := BitVec.ofNat 8 (w.toNat / 2 ^ 8),
                       tagEsc := BitVec.ofNat 8 (w.toNat / 2 ^ 16) }
    ∧ step { s with inputs := .hostWrite 0x004 (.w32 w) :: rest }
      = .next { s with inputs := rest, rxOvf := if w.toNat / 2 ^ 8 % 2 = 1 then false else s.rxOvf }

/-- Every 33-bit generator can be written, and reads back as written (10_state.md R27). -/
def Obligations.GeneratorReadsBackAsWritten : Prop :=
  ∀ (s t u : State) (lo hi : Word) (rest : List Input),
    step { s with inputs := .hostWrite 0x00C (.w32 lo) :: .hostWrite 0x010 (.w32 hi) :: rest } = .next t →
    step t = .next u →
    u.G = hi.toNat % 2 * 2 ^ 32 + lo.toNat ∧ u.readReg .genLo = lo ∧ (u.readReg .genHi).toNat = hi.toNat % 2

/-- Buffer accesses are little-endian: an aligned write of n bytes inside IBUF sets byte k of the value at offset + k
and changes no other byte and nothing else; an aligned read inside IBUF or OBUF returns the bytes so composed
(20_memory.md R64, R65; 44_control.md R230, R231). -/
def Obligations.BufferAccessesAreLittleEndian : Prop :=
  ∀ (s : State) (rest : List Input) (off : Offset),
    (∀ v : BusValue, 0x100 ≤ off.toNat → off.toNat < 0x140 → off.toNat % v.size.bytes = 0 →
      ∃ t, step { s with inputs := .hostWrite off v :: rest } = .next t
        ∧ t = { s with inputs := rest, ibuf := t.ibuf }
        ∧ (∀ k, k < v.size.bytes → (t.memByte (off.toNat + k)).toNat =
            (match v with | .w8 x => x.toNat | .w16 x => x.toNat | .w32 x => x.toNat) / 256 ^ k % 256)
        ∧ ∀ a, (a < off.toNat ∨ off.toNat + v.size.bytes ≤ a) → t.memByte a = s.memByte a)
    ∧ ((0x100 ≤ off.toNat ∧ off.toNat < 0x140) ∨ (0x200 ≤ off.toNat ∧ off.toNat < 0x300) →
      s.readValue off .byte = .w8 (s.memByte off.toNat)
      ∧ (off.toNat % 2 = 0 → s.readValue off .half
        = .w16 (BitVec.ofNat 16 ((s.memByte off.toNat).toNat + 256 * (s.memByte (off.toNat + 1)).toNat)))
      ∧ (off.toNat % 4 = 0 → s.readValue off .word
        = .w32 (BitVec.ofNat 32 ((s.memByte off.toNat).toNat + 256 * (s.memByte (off.toNat + 1)).toNat
          + 65536 * (s.memByte (off.toNat + 2)).toNat + 16777216 * (s.memByte (off.toNat + 3)).toNat))))

/-- Accesses that are not legal, and writes of read-only space, do nothing: a write to a reserved offset or to OBUF, a
misaligned write to IBUF, a write of a register that is not 32 bits wide and aligned, and a write of a read-only
register only pass; the same reads return 0 (20_memory.md R62 to R67; 44_control.md R228, R231). -/
def Obligations.IllegalAccessesAreIgnored : Prop :=
  ∀ (s : State) (rest : List Input) (off : Offset) (v : BusValue) (n : BusSize),
    ((regionOf off = .reserved ∨ regionOf off = .obuf ∨ (regionOf off = .ibuf ∧ off.toNat % v.size.bytes ≠ 0)
        ∨ (regionOf off = .registers ∧ (v.size ≠ .word ∨ off.toNat % 4 ≠ 0))
        ∨ off ∈ [(0x018 : Offset), 0x01C, 0x020, 0x024, 0x02C]) →
      step { s with inputs := .hostWrite off v :: rest } = .next { s with inputs := rest })
    ∧ ((regionOf off = .reserved ∨ ((regionOf off = .ibuf ∨ regionOf off = .obuf) ∧ off.toNat % n.bytes ≠ 0)
        ∨ (regionOf off = .registers ∧ (n ≠ .word ∨ off.toNat % 4 ≠ 0))) →
      s.readValue off n = n.value 0)
end

