-- ==== Sys2Proof/Laws/Crc.lean ====
section
/-! SUPPORT. Bit lengths, the degree of a generator, one division step as arithmetic, and the lengths of codes. -/

namespace Sys2Proof.Machine

theorem bitlen_le_iff (x n : Nat) : bitlen x ≤ n ↔ x < 2 ^ n := by
  unfold bitlen
  split
  · next h => subst h; simp
  · next h => rw [Nat.succ_le_iff, Nat.log2_lt h]

/-- A generator lies between 2^d and 2^(d+1), d its degree. -/
theorem degree_bounds {G : Nat} (h : 1 ≤ G) : 2 ^ degree G ≤ G ∧ G < 2 ^ (degree G + 1) := by
  unfold degree bitlen
  rw [if_neg (by omega)]
  simp only [Nat.add_sub_cancel]
  exact ⟨Nat.log2_self_le (by omega), Nat.lt_log2_self⟩

theorem degree_testBit {G : Nat} (h : 1 ≤ G) : G.testBit (degree G) = true := by
  obtain ⟨h1, h2⟩ := degree_bounds h
  rw [Nat.testBit_eq_decide_div_mod_eq, decide_eq_true_eq]
  have : G / 2 ^ degree G = 1 := by
    apply Nat.div_eq_of_lt_le <;> rw [Nat.pow_succ] at * <;> omega
  rw [this]

theorem degree_pos {G : Nat} (h : 2 ≤ G) : 1 ≤ degree G := by
  by_contra hc
  have := (degree_bounds (G := G) (by omega)).2
  rw [show degree G = 0 by omega] at this
  omega

theorem degree_le_32 {G : Nat} (h : G < 2 ^ 33) : degree G ≤ 32 := by
  unfold degree
  have := (bitlen_le_iff G 33).mpr h
  omega

theorem degree_le_bits (G : Nat) : degree G ≤ 8 * crcLen G := by
  unfold crcLen
  omega

theorem crcLen_le {G : Nat} (h : G < 2 ^ 33) : crcLen G ≤ 4 := by
  unfold crcLen
  have := degree_le_32 h
  omega

theorem G_lt (s : State) : s.G < 2 ^ 33 := s.gen.isLt

/-- Shifting a register left and taking in a bit, as arithmetic. -/
theorem shl_or_toNat (R : Nat) (b : Bool) : (R <<< 1) ||| b.toNat = 2 * R + b.toNat := by
  have := Nat.two_pow_add_eq_or_of_lt (i := 1) (b := b.toNat) (by cases b <;> decide) R
  rw [Nat.shiftLeft_eq, show R * 2 ^ 1 = 2 ^ 1 * R by ring, ← this]

theorem testBit_two_mul_add (c : Nat) (z : Bool) (i : Nat) :
    (2 * c + z.toNat).testBit i = match i with | 0 => z | i + 1 => c.testBit i := by
  cases i with
  | zero => cases z <;> simp [Nat.testBit_zero]
  | succ i =>
    rw [Nat.testBit_succ]
    congr 1
    cases z <;> simp
    omega

/-- One division step on a register below 2^d: shift in the bit, and subtract the generator when bit d is then set. -/
theorem divStep_eq {G R : Nat} (b : Bool) (hR : R < 2 ^ degree G) :
    divStep G R b = (2 * R + b.toNat) ^^^ (if (2 * R + b.toNat).testBit (degree G) then G else 0) := by
  have hb : b.toNat ≤ 1 := by cases b <;> decide
  have h2 : 2 * R + b.toNat < 2 ^ (degree G + 1) := by
    rw [Nat.pow_succ]
    omega
  unfold divStep
  simp only [shl_or_toNat]
  generalize 2 * R + b.toNat = x at h2 ⊢
  have hiff : bitlen x ≥ degree G + 1 ↔ x.testBit (degree G) = true := by
    rw [ge_iff_le, Nat.succ_le_iff, ← not_le, bitlen_le_iff, not_lt]
    constructor
    · intro h
      rw [Nat.testBit_eq_decide_div_mod_eq, decide_eq_true_eq, show x / 2 ^ degree G = 1 from ?_]
      apply Nat.div_eq_of_lt_le <;> rw [Nat.pow_succ] at * <;> omega
    · intro h
      exact Nat.ge_two_pow_of_testBit h
  split
  · next hh => rw [if_pos (hiff.mp hh)]
  · next hh => rw [if_neg (fun hc => hh (hiff.mpr hc)), Nat.xor_zero]

theorem length_bitsOf (s : List Byte) : (bitsOf s).length = 8 * s.length := by
  induction s with
  | nil => rfl
  | cons b s ih =>
    simp only [bitsOf, List.flatMap_cons, List.length_append] at ih ⊢
    rw [ih]
    simp [bitsOf1]
    omega

@[simp] theorem length_codeBytes (L C : Nat) : (codeBytes L C).length = L := by simp [codeBytes]

theorem framesParity_lt (s : List Byte) : framesParity s < 2 := by
  have h : ∀ (s : List Byte) (p : Nat), p < 2 → s.foldl (fun p b => p ^^^ bitParity b) p < 2 := by
    intro s
    induction s with
    | nil => exact fun p hp => hp
    | cons b s ih => exact fun p hp => ih _ (Nat.xor_lt_two_pow (n := 1) hp (Nat.mod_lt _ (by omega)))
  exact h s 0 (by omega)

end Sys2Proof.Machine
end

