-- ==== Sys2Proof/Laws/Decode.lean ====
section
/-! SUPPORT. The fields of a command word as naturals, and the byte order of a bus value. -/

namespace Sys2Proof

theorem opcodeField_toNat (w : Word) : (opcodeField w).toNat = w.toNat % 256 := by
  simp [opcodeField, BitVec.extractLsb'_toNat]

theorem rsvdField_toNat (w : Word) : (rsvdField w).toNat = w.toNat / 256 % 256 := by
  simp [rsvdField, BitVec.extractLsb'_toNat, Nat.shiftRight_eq_div_pow]

theorem lenField_toNat (w : Word) : (lenField w).toNat = w.toNat / 65536 := by
  simp only [lenField, BitVec.extractLsb'_toNat, Nat.shiftRight_eq_div_pow]
  have := w.isLt
  omega

theorem cmdWord_toNat (op n : Nat) (ho : op < 256) (hn : n < 65536) : (cmdWord op n).toNat = n * 65536 + op := by
  unfold cmdWord
  rw [BitVec.toNat_or, BitVec.toNat_shiftLeft, BitVec.toNat_ofNat, BitVec.toNat_ofNat,
    Nat.mod_eq_of_lt (a := n) (by omega), Nat.mod_eq_of_lt (a := op) (by omega), Nat.shiftLeft_eq,
    Nat.mod_eq_of_lt (by omega), show n * 2 ^ 16 = 2 ^ 16 * n by ring, ← Nat.two_pow_add_eq_or_of_lt (by omega)]
  omega

/-- Every operation a command opcode selects has format CMD. -/
theorem commandOf_format {op : Byte} {n : Nat} {i : Instr} (h : commandOf op n = some i) : i.format = .cmd := by
  unfold commandOf at h
  split at h <;> cases h <;> rfl

/-- An operation the decoder reads has the format the word was written in. -/
theorem decode_format {f : Format} {w : Word} {i : Instr} (h : decode f w = .instr i) : i.format = f := by
  cases f with
  | cmd =>
    simp only [decode, decodeCmd] at h
    split at h
    · cases h
    · next j hj =>
      split_ifs at h
      cases h
      exact commandOf_format hj
  | rxdata =>
    simp only [decode, Decoded.instr.injEq] at h
    subst h
    rfl
  | ctrl =>
    simp only [decode] at h
    split at h <;> cases h
    rfl

@[simp] theorem length_leBytes (n v : Nat) : (leBytes n v).length = n := by
  induction n generalizing v with
  | zero => rfl
  | succ n ih => simp [leBytes, ih]

/-- Composing the bytes of a value gives the value back, modulo its width. -/
theorem leValue_leBytes (n v : Nat) : leValue (leBytes n v) = v % 256 ^ n := by
  induction n generalizing v with
  | zero => simp [leBytes, leValue, Nat.mod_one]
  | succ n ih =>
    have := Nat.mod_mul (x := v) (a := 256) (b := 256 ^ n)
    simp only [leBytes, leValue, ih, BitVec.toNat_ofNat]
    rw [show (256 : Nat) ^ (n + 1) = 256 * 256 ^ n by ring, this]

theorem getElem?_leBytes (n v k : Nat) :
    (leBytes n v)[k]? = if k < n then some (BitVec.ofNat 8 (v / 256 ^ k)) else none := by
  induction n generalizing v k with
  | zero => simp [leBytes]
  | succ n ih =>
    cases k with
    | zero => simp [leBytes]
    | succ k => simp [leBytes, ih, Nat.pow_succ', Nat.div_div_eq_div_mul]

end Sys2Proof
end

