-- ==== Sys2Proof/Laws/Memory.lean ====
section
/-! SUPPORT. What the buffer operations do: reads after writes, and the canonical form each of them keeps. -/

namespace Sys2Proof.Machine

/-! ### Cells -/

theorem findCell_insertCell_same (cs : List Host.Cell) (a : Nat) (b : Byte) : findCell (insertCell cs a b) a = some b := by
  induction cs with
  | nil => simp [insertCell, findCell]
  | cons c cs ih =>
    obtain ⟨k, v⟩ := c
    unfold insertCell
    split
    · simp [findCell]
    · split
      · simp [findCell]
      · next h => simp [findCell, ih, Ne.symm h]

theorem findCell_insertCell_other (cs : List Host.Cell) (a c : Nat) (b : Byte) (h : c ≠ a) :
    findCell (insertCell cs a b) c = findCell cs c := by
  induction cs with
  | nil => simp [insertCell, findCell, Ne.symm h]
  | cons d cs ih =>
    obtain ⟨k, v⟩ := d
    unfold insertCell
    split
    · simp [findCell, Ne.symm h]
    · split
      · next h2 => subst h2; simp [findCell, Ne.symm h]
      · simp [findCell, ih]

/-- The addresses after an insertion are the old ones and the new one. -/
theorem mem_insertCell {cs : List Host.Cell} {a : Nat} {b : Byte} {c : Host.Cell} (h : c ∈ insertCell cs a b) :
    c = (a, b) ∨ c ∈ cs := by
  induction cs with
  | nil => simpa [insertCell] using h
  | cons d cs ih =>
    obtain ⟨k, v⟩ := d
    unfold insertCell at h
    split at h
    · simpa using h
    · split at h
      · simp only [List.mem_cons] at h ⊢; tauto
      · simp only [List.mem_cons] at h ⊢; tauto

theorem insertCell_sorted (cs : List Host.Cell) (a : Nat) (b : Byte)
    (h : cs.Pairwise fun c c' => c.1 < c'.1) : (insertCell cs a b).Pairwise fun c c' => c.1 < c'.1 := by
  induction cs with
  | nil => simp [insertCell]
  | cons d cs ih =>
    obtain ⟨k, v⟩ := d
    obtain ⟨hd, ht⟩ := List.pairwise_cons.mp h
    unfold insertCell
    split
    · next hlt =>
      refine List.pairwise_cons.mpr ⟨fun c hc => ?_, h⟩
      rcases List.mem_cons.mp hc with rfl | hc
      · exact hlt
      · exact Nat.lt_trans hlt (hd c hc)
    · split
      · next heq => exact List.pairwise_cons.mpr ⟨fun c hc => heq ▸ hd c hc, ht⟩
      · next hge hne =>
        refine List.pairwise_cons.mpr ⟨fun c hc => ?_, ih ht⟩
        rcases mem_insertCell hc with rfl | hc
        · show k < a
          omega
        · exact hd c hc

theorem findCell_cellsFrom (a : Nat) (bs : List Byte) (c : Nat) :
    findCell (cellsFrom a bs) c = if a ≤ c then bs[c - a]? else none := by
  induction bs generalizing a with
  | nil => simp [cellsFrom, findCell]
  | cons b bs ih =>
    simp only [cellsFrom, findCell, ih]
    by_cases h1 : a = c
    · simp [h1]
    · by_cases h2 : a ≤ c
      · rw [if_neg h1, if_pos h2, if_pos (by omega), show c - a = (c - (a + 1)) + 1 by omega]
        simp
      · rw [if_neg h1, if_neg h2, if_neg (by omega)]

theorem mem_cellsFrom {a : Nat} {bs : List Byte} {c : Host.Cell} (h : c ∈ cellsFrom a bs) :
    a ≤ c.1 ∧ c.1 < a + bs.length := by
  induction bs generalizing a with
  | nil => simp [cellsFrom] at h
  | cons b bs ih =>
    rcases List.mem_cons.mp h with rfl | h
    · simp
    · have := ih h
      simp only [List.length_cons]
      omega

theorem cellsFrom_sorted (a : Nat) (bs : List Byte) : (cellsFrom a bs).Pairwise fun c c' => c.1 < c'.1 := by
  induction bs generalizing a with
  | nil => simp [cellsFrom]
  | cons b bs ih => exact List.pairwise_cons.mpr ⟨fun c hc => (mem_cellsFrom hc).1, ih (a + 1)⟩

/-! ### Reads after writes -/

@[simp] theorem write_draw (m : Memory) (a : Nat) (b : Byte) : (m.write a b).draw = m.draw := rfl

@[simp] theorem fresh_draw (d a : Nat) (bs : List Byte) : (Memory.fresh d a bs).draw = d := rfl

@[simp] theorem writeBytes_draw (m : Memory) (a : Nat) (bs : List Byte) : (m.writeBytes a bs).draw = m.draw := by
  induction bs generalizing m a with
  | nil => rfl
  | cons b bs ih => simp [Memory.writeBytes, ih]

@[simp] theorem read_write_same (m : Memory) (a : Nat) (b : Byte) : (m.write a b).read a = b := by
  simp [Memory.read, Memory.write, findCell_insertCell_same]

theorem read_write_other (m : Memory) (a c : Nat) (b : Byte) (h : c ≠ a) : (m.write a b).read c = m.read c := by
  simp only [Memory.read, Memory.write, findCell_insertCell_other _ _ _ _ h]
  rfl

/-- What consecutive writes leave at every address. -/
theorem read_writeBytes (m : Memory) (a : Nat) (bs : List Byte) (c : Nat) :
    (m.writeBytes a bs).read c = if a ≤ c then (bs[c - a]?).getD (m.read c) else m.read c := by
  induction bs generalizing m a with
  | nil => simp [Memory.writeBytes]
  | cons b bs ih =>
    simp only [Memory.writeBytes, ih]
    by_cases h1 : c = a
    · subst h1; simp
    · rw [read_write_other _ _ _ _ h1]
      by_cases h2 : a ≤ c
      · rw [if_pos h2, if_pos (by omega), show c - a = (c - (a + 1)) + 1 by omega]
        simp
      · rw [if_neg h2, if_neg (by omega)]

/-- What a fresh buffer holds: the given bytes, and the draw's unspecified bytes elsewhere. -/
theorem read_fresh (d a : Nat) (bs : List Byte) (c : Nat) :
    (Memory.fresh d a bs).read c = if a ≤ c then (bs[c - a]?).getD (Config.freeByte d c) else Config.freeByte d c := by
  simp only [Memory.read, Memory.fresh, findCell_cellsFrom, Memory.unlisted]
  by_cases h : a ≤ c
  · simp only [if_pos h]
    cases bs[c - a]? <;> rfl
  · simp [if_neg h]

@[simp] theorem length_readBytes (m : Memory) (a n : Nat) : (m.readBytes a n).length = n := by simp [Memory.readBytes]

theorem getElem_readBytes (m : Memory) (a n i : Nat) (h : i < (m.readBytes a n).length) :
    (m.readBytes a n)[i] = m.read (a + i) := by simp [Memory.readBytes]

/-- A fresh buffer gives its bytes back. -/
theorem readBytes_fresh (d a : Nat) (bs : List Byte) : (Memory.fresh d a bs).readBytes a bs.length = bs := by
  refine List.ext_getElem (by simp) fun i h1 h2 => ?_
  rw [getElem_readBytes, read_fresh]
  simp [h2]

/-! ### The canonical form -/

theorem wf_iff (m : Memory) : m.wf = true ↔ m.cells.Pairwise fun c c' => c.1 < c'.1 := by simp [Memory.wf]

theorem wf_write (m : Memory) (a : Nat) (b : Byte) (h : m.wf = true) : (m.write a b).wf = true :=
  (wf_iff _).mpr (insertCell_sorted _ _ _ ((wf_iff _).mp h))

theorem wf_writeBytes (m : Memory) (a : Nat) (bs : List Byte) (h : m.wf = true) : (m.writeBytes a bs).wf = true := by
  induction bs generalizing m a with
  | nil => exact h
  | cons b bs ih => exact ih _ _ (wf_write _ _ _ h)

theorem wf_fresh (d a : Nat) (bs : List Byte) : (Memory.fresh d a bs).wf = true :=
  (wf_iff _).mpr (cellsFrom_sorted a bs)

theorem within_iff (m : Memory) (lo hi : Nat) : m.within lo hi = true ↔ ∀ c ∈ m.cells, lo ≤ c.1 ∧ c.1 < hi := by
  simp [Memory.within]

theorem within_write (m : Memory) (lo hi a : Nat) (b : Byte) (h : m.within lo hi = true) (ha : lo ≤ a ∧ a < hi) :
    (m.write a b).within lo hi = true := by
  refine (within_iff _ _ _).mpr fun c hc => ?_
  rcases mem_insertCell hc with rfl | hc
  · exact ha
  · exact (within_iff _ _ _).mp h c hc

theorem within_writeBytes (m : Memory) (lo hi a : Nat) (bs : List Byte) (h : m.within lo hi = true)
    (ha : lo ≤ a ∧ a + bs.length ≤ hi) : (m.writeBytes a bs).within lo hi = true := by
  induction bs generalizing m a with
  | nil => exact h
  | cons b bs ih =>
    have hl : (b :: bs).length = bs.length + 1 := rfl
    exact ih _ _ (within_write _ _ _ _ _ h (by omega)) (by omega)

theorem within_fresh (d a hi : Nat) (bs : List Byte) (h : a + bs.length ≤ hi) : (Memory.fresh d a bs).within a hi = true :=
  (within_iff _ _ _).mpr fun _ hc => ⟨(mem_cellsFrom hc).1, by have := (mem_cellsFrom hc).2; omega⟩

/-- Equal bytes at every listed place and the same draw read alike everywhere. -/
theorem read_congr (m m' : Memory) (hd : m.draw = m'.draw) (hc : ∀ a, findCell m.cells a = findCell m'.cells a) (a : Nat) :
    m.read a = m'.read a := by simp [Memory.read, hc a, Memory.unlisted, hd]

/-- Two lists in canonical form that list the same bytes at the same addresses are the same list: equal buffers are equal
data. -/
theorem cells_ext {cs ds : List Host.Cell} (hc : cs.Pairwise fun c c' => c.1 < c'.1)
    (hd : ds.Pairwise fun c c' => c.1 < c'.1) (h : ∀ a, findCell cs a = findCell ds a) : cs = ds := by
  induction cs generalizing ds with
  | nil =>
    cases ds with
    | nil => rfl
    | cons d ds => simpa [findCell] using h d.1
  | cons c cs ih =>
    obtain ⟨k, v⟩ := c
    cases ds with
    | nil => simpa [findCell] using h k
    | cons d ds =>
      obtain ⟨l, w⟩ := d
      have none_below : ∀ {es : List Host.Cell} {a : Nat}, (∀ e ∈ es, a < e.1) → findCell es a = none := by
        intro es a hes
        induction es with
        | nil => rfl
        | cons e es ihe =>
          have := hes e (by simp)
          simp only [findCell]
          rw [if_neg (by omega), ihe fun e he => hes e (by simp [he])]
      obtain ⟨hck, hcs⟩ := List.pairwise_cons.mp hc
      obtain ⟨hdl, hds⟩ := List.pairwise_cons.mp hd
      have hkl : k = l := by
        rcases Nat.lt_trichotomy k l with hlt | heq | hgt
        · have h1 := h k
          rw [none_below (es := (l, w) :: ds)] at h1
          · simp [findCell] at h1
          · intro e he
            rcases List.mem_cons.mp he with rfl | he
            · exact hlt
            · exact Nat.lt_trans hlt (hdl e he)
        · exact heq
        · have h1 := h l
          rw [none_below (es := (k, v) :: cs)] at h1
          · simp [findCell] at h1
          · intro e he
            rcases List.mem_cons.mp he with rfl | he
            · exact hgt
            · exact Nat.lt_trans hgt (hck e he)
      subst hkl
      have hv : v = w := by simpa [findCell] using h k
      subst hv
      congr 1
      refine ih hcs hds fun a => ?_
      by_cases ha : k = a
      · subst ha
        rw [none_below hck, none_below hdl]
      · simpa [findCell, ha] using h a

end Sys2Proof.Machine
end

