-- ==== Sys2Proof/Laws/State.lean ====
section
/-! SUPPORT. One lemma per field per update of State, each true by unfolding the update once. -/

namespace Sys2Proof.Machine

/-! ### An accepted command's STATUS -/

@[simp] theorem accept_scheme (s : State) (r : Result) : (s.accept r).scheme = s.scheme := rfl
@[simp] theorem accept_gen (s : State) (r : Result) : (s.accept r).gen = s.gen := rfl
@[simp] theorem accept_tagStart (s : State) (r : Result) : (s.accept r).tagStart = s.tagStart := rfl
@[simp] theorem accept_tagStop (s : State) (r : Result) : (s.accept r).tagStop = s.tagStop := rfl
@[simp] theorem accept_tagEsc (s : State) (r : Result) : (s.accept r).tagEsc = s.tagEsc := rfl
@[simp] theorem accept_result (s : State) (r : Result) : (s.accept r).result = r := rfl
@[simp] theorem accept_errcode (s : State) (r : Result) : (s.accept r).errcode = .none := rfl
@[simp] theorem accept_rxOvf (s : State) (r : Result) : (s.accept r).rxOvf = s.rxOvf := rfl
@[simp] theorem accept_rem (s : State) (r : Result) : (s.accept r).rem = s.rem := rfl
@[simp] theorem accept_olen (s : State) (r : Result) : (s.accept r).olen = s.olen := rfl
@[simp] theorem accept_consumed (s : State) (r : Result) : (s.accept r).consumed = s.consumed := rfl
@[simp] theorem accept_ibuf (s : State) (r : Result) : (s.accept r).ibuf = s.ibuf := rfl
@[simp] theorem accept_obuf (s : State) (r : Result) : (s.accept r).obuf = s.obuf := rfl
@[simp] theorem accept_rxq (s : State) (r : Result) : (s.accept r).rxq = s.rxq := rfl
@[simp] theorem accept_draws (s : State) (r : Result) : (s.accept r).draws = s.draws := rfl
@[simp] theorem accept_readData (s : State) (r : Result) : (s.accept r).readData = s.readData := rfl
@[simp] theorem accept_inputs (s : State) (r : Result) : (s.accept r).inputs = s.inputs := rfl

/-! ### A rejected command -/

@[simp] theorem reject_scheme (s : State) (e : ErrCode) : (s.reject e).scheme = s.scheme := rfl
@[simp] theorem reject_gen (s : State) (e : ErrCode) : (s.reject e).gen = s.gen := rfl
@[simp] theorem reject_tagStart (s : State) (e : ErrCode) : (s.reject e).tagStart = s.tagStart := rfl
@[simp] theorem reject_tagStop (s : State) (e : ErrCode) : (s.reject e).tagStop = s.tagStop := rfl
@[simp] theorem reject_tagEsc (s : State) (e : ErrCode) : (s.reject e).tagEsc = s.tagEsc := rfl
@[simp] theorem reject_result (s : State) (e : ErrCode) : (s.reject e).result = .cmdError := rfl
@[simp] theorem reject_errcode (s : State) (e : ErrCode) : (s.reject e).errcode = e := rfl
@[simp] theorem reject_rxOvf (s : State) (e : ErrCode) : (s.reject e).rxOvf = s.rxOvf := rfl
@[simp] theorem reject_rem (s : State) (e : ErrCode) : (s.reject e).rem = s.rem := rfl
@[simp] theorem reject_olen (s : State) (e : ErrCode) : (s.reject e).olen = s.olen := rfl
@[simp] theorem reject_consumed (s : State) (e : ErrCode) : (s.reject e).consumed = s.consumed := rfl
@[simp] theorem reject_ibuf (s : State) (e : ErrCode) : (s.reject e).ibuf = s.ibuf := rfl
@[simp] theorem reject_obuf (s : State) (e : ErrCode) : (s.reject e).obuf = s.obuf := rfl
@[simp] theorem reject_rxq (s : State) (e : ErrCode) : (s.reject e).rxq = s.rxq := rfl
@[simp] theorem reject_draws (s : State) (e : ErrCode) : (s.reject e).draws = s.draws := rfl
@[simp] theorem reject_readData (s : State) (e : ErrCode) : (s.reject e).readData = s.readData := rfl
@[simp] theorem reject_inputs (s : State) (e : ErrCode) : (s.reject e).inputs = s.inputs := rfl

/-! ### The output of a command -/

@[simp] theorem setOutput_scheme (s : State) (out : List Byte) : (s.setOutput out).scheme = s.scheme := rfl
@[simp] theorem setOutput_gen (s : State) (out : List Byte) : (s.setOutput out).gen = s.gen := rfl
@[simp] theorem setOutput_tagStart (s : State) (out : List Byte) : (s.setOutput out).tagStart = s.tagStart := rfl
@[simp] theorem setOutput_tagStop (s : State) (out : List Byte) : (s.setOutput out).tagStop = s.tagStop := rfl
@[simp] theorem setOutput_tagEsc (s : State) (out : List Byte) : (s.setOutput out).tagEsc = s.tagEsc := rfl
@[simp] theorem setOutput_result (s : State) (out : List Byte) : (s.setOutput out).result = s.result := rfl
@[simp] theorem setOutput_errcode (s : State) (out : List Byte) : (s.setOutput out).errcode = s.errcode := rfl
@[simp] theorem setOutput_rxOvf (s : State) (out : List Byte) : (s.setOutput out).rxOvf = s.rxOvf := rfl
@[simp] theorem setOutput_rem (s : State) (out : List Byte) : (s.setOutput out).rem = s.rem := rfl
@[simp] theorem setOutput_olen (s : State) (out : List Byte) : (s.setOutput out).olen = out.length := rfl
@[simp] theorem setOutput_consumed (s : State) (out : List Byte) : (s.setOutput out).consumed = s.consumed := rfl
@[simp] theorem setOutput_ibuf (s : State) (out : List Byte) : (s.setOutput out).ibuf = s.ibuf := rfl
@[simp] theorem setOutput_obuf (s : State) (out : List Byte) : (s.setOutput out).obuf = Memory.fresh s.draws Config.obufBase out := rfl
@[simp] theorem setOutput_rxq (s : State) (out : List Byte) : (s.setOutput out).rxq = s.rxq := rfl
@[simp] theorem setOutput_draws (s : State) (out : List Byte) : (s.setOutput out).draws = s.draws + 1 := rfl
@[simp] theorem setOutput_readData (s : State) (out : List Byte) : (s.setOutput out).readData = s.readData := rfl
@[simp] theorem setOutput_inputs (s : State) (out : List Byte) : (s.setOutput out).inputs = s.inputs := rfl

/-! ### REM -/

@[simp] theorem setRem_scheme (s : State) (r : Nat) : (s.setRem r).scheme = s.scheme := rfl
@[simp] theorem setRem_gen (s : State) (r : Nat) : (s.setRem r).gen = s.gen := rfl
@[simp] theorem setRem_tagStart (s : State) (r : Nat) : (s.setRem r).tagStart = s.tagStart := rfl
@[simp] theorem setRem_tagStop (s : State) (r : Nat) : (s.setRem r).tagStop = s.tagStop := rfl
@[simp] theorem setRem_tagEsc (s : State) (r : Nat) : (s.setRem r).tagEsc = s.tagEsc := rfl
@[simp] theorem setRem_result (s : State) (r : Nat) : (s.setRem r).result = s.result := rfl
@[simp] theorem setRem_errcode (s : State) (r : Nat) : (s.setRem r).errcode = s.errcode := rfl
@[simp] theorem setRem_rxOvf (s : State) (r : Nat) : (s.setRem r).rxOvf = s.rxOvf := rfl
@[simp] theorem setRem_rem (s : State) (r : Nat) : (s.setRem r).rem = BitVec.ofNat 32 r := rfl
@[simp] theorem setRem_olen (s : State) (r : Nat) : (s.setRem r).olen = s.olen := rfl
@[simp] theorem setRem_consumed (s : State) (r : Nat) : (s.setRem r).consumed = s.consumed := rfl
@[simp] theorem setRem_ibuf (s : State) (r : Nat) : (s.setRem r).ibuf = s.ibuf := rfl
@[simp] theorem setRem_obuf (s : State) (r : Nat) : (s.setRem r).obuf = s.obuf := rfl
@[simp] theorem setRem_rxq (s : State) (r : Nat) : (s.setRem r).rxq = s.rxq := rfl
@[simp] theorem setRem_draws (s : State) (r : Nat) : (s.setRem r).draws = s.draws := rfl
@[simp] theorem setRem_readData (s : State) (r : Nat) : (s.setRem r).readData = s.readData := rfl
@[simp] theorem setRem_inputs (s : State) (r : Nat) : (s.setRem r).inputs = s.inputs := rfl

/-! ### Removal from RXQ -/

@[simp] theorem consume_scheme (s : State) (k : Nat) : (s.consume k).scheme = s.scheme := rfl
@[simp] theorem consume_gen (s : State) (k : Nat) : (s.consume k).gen = s.gen := rfl
@[simp] theorem consume_tagStart (s : State) (k : Nat) : (s.consume k).tagStart = s.tagStart := rfl
@[simp] theorem consume_tagStop (s : State) (k : Nat) : (s.consume k).tagStop = s.tagStop := rfl
@[simp] theorem consume_tagEsc (s : State) (k : Nat) : (s.consume k).tagEsc = s.tagEsc := rfl
@[simp] theorem consume_result (s : State) (k : Nat) : (s.consume k).result = s.result := rfl
@[simp] theorem consume_errcode (s : State) (k : Nat) : (s.consume k).errcode = s.errcode := rfl
@[simp] theorem consume_rxOvf (s : State) (k : Nat) : (s.consume k).rxOvf = s.rxOvf := rfl
@[simp] theorem consume_rem (s : State) (k : Nat) : (s.consume k).rem = s.rem := rfl
@[simp] theorem consume_olen (s : State) (k : Nat) : (s.consume k).olen = s.olen := rfl
@[simp] theorem consume_consumed (s : State) (k : Nat) : (s.consume k).consumed = k := rfl
@[simp] theorem consume_ibuf (s : State) (k : Nat) : (s.consume k).ibuf = s.ibuf := rfl
@[simp] theorem consume_obuf (s : State) (k : Nat) : (s.consume k).obuf = s.obuf := rfl
@[simp] theorem consume_rxq (s : State) (k : Nat) : (s.consume k).rxq = s.rxq.drop k := rfl
@[simp] theorem consume_draws (s : State) (k : Nat) : (s.consume k).draws = s.draws := rfl
@[simp] theorem consume_readData (s : State) (k : Nat) : (s.consume k).readData = s.readData := rfl
@[simp] theorem consume_inputs (s : State) (k : Nat) : (s.consume k).inputs = s.inputs := rfl

/-! ### Reset -/

@[simp] theorem resetAll_scheme (s : State) : (s.resetAll).scheme = .crc := rfl
@[simp] theorem resetAll_gen (s : State) : (s.resetAll).gen = 0 := rfl
@[simp] theorem resetAll_tagStart (s : State) : (s.resetAll).tagStart = 0x7B := rfl
@[simp] theorem resetAll_tagStop (s : State) : (s.resetAll).tagStop = 0x7D := rfl
@[simp] theorem resetAll_tagEsc (s : State) : (s.resetAll).tagEsc = 0x5C := rfl
@[simp] theorem resetAll_result (s : State) : (s.resetAll).result = .ok := rfl
@[simp] theorem resetAll_errcode (s : State) : (s.resetAll).errcode = .none := rfl
@[simp] theorem resetAll_rxOvf (s : State) : (s.resetAll).rxOvf = false := rfl
@[simp] theorem resetAll_rem (s : State) : (s.resetAll).rem = 0 := rfl
@[simp] theorem resetAll_olen (s : State) : (s.resetAll).olen = 0 := rfl
@[simp] theorem resetAll_consumed (s : State) : (s.resetAll).consumed = 0 := rfl
@[simp] theorem resetAll_ibuf (s : State) : (s.resetAll).ibuf = Memory.fresh s.draws Config.ibufBase [] := rfl
@[simp] theorem resetAll_obuf (s : State) : (s.resetAll).obuf = Memory.fresh s.draws Config.obufBase [] := rfl
@[simp] theorem resetAll_rxq (s : State) : (s.resetAll).rxq = [] := rfl
@[simp] theorem resetAll_draws (s : State) : (s.resetAll).draws = s.draws + 1 := rfl
@[simp] theorem resetAll_readData (s : State) : (s.resetAll).readData = s.readData := rfl
@[simp] theorem resetAll_inputs (s : State) : (s.resetAll).inputs = s.inputs := rfl

/-! ### A bus read -/

@[simp] theorem busRead_scheme (s : State) (off : Offset) (n : BusSize) : (s.busRead off n).scheme = s.scheme := rfl
@[simp] theorem busRead_gen (s : State) (off : Offset) (n : BusSize) : (s.busRead off n).gen = s.gen := rfl
@[simp] theorem busRead_tagStart (s : State) (off : Offset) (n : BusSize) : (s.busRead off n).tagStart = s.tagStart := rfl
@[simp] theorem busRead_tagStop (s : State) (off : Offset) (n : BusSize) : (s.busRead off n).tagStop = s.tagStop := rfl
@[simp] theorem busRead_tagEsc (s : State) (off : Offset) (n : BusSize) : (s.busRead off n).tagEsc = s.tagEsc := rfl
@[simp] theorem busRead_result (s : State) (off : Offset) (n : BusSize) : (s.busRead off n).result = s.result := rfl
@[simp] theorem busRead_errcode (s : State) (off : Offset) (n : BusSize) : (s.busRead off n).errcode = s.errcode := rfl
@[simp] theorem busRead_rxOvf (s : State) (off : Offset) (n : BusSize) : (s.busRead off n).rxOvf = s.rxOvf := rfl
@[simp] theorem busRead_rem (s : State) (off : Offset) (n : BusSize) : (s.busRead off n).rem = s.rem := rfl
@[simp] theorem busRead_olen (s : State) (off : Offset) (n : BusSize) : (s.busRead off n).olen = s.olen := rfl
@[simp] theorem busRead_consumed (s : State) (off : Offset) (n : BusSize) : (s.busRead off n).consumed = s.consumed := rfl
@[simp] theorem busRead_ibuf (s : State) (off : Offset) (n : BusSize) : (s.busRead off n).ibuf = s.ibuf := rfl
@[simp] theorem busRead_obuf (s : State) (off : Offset) (n : BusSize) : (s.busRead off n).obuf = s.obuf := rfl
@[simp] theorem busRead_rxq (s : State) (off : Offset) (n : BusSize) : (s.busRead off n).rxq = s.rxq := rfl
@[simp] theorem busRead_draws (s : State) (off : Offset) (n : BusSize) : (s.busRead off n).draws = s.draws := rfl
@[simp] theorem busRead_readData (s : State) (off : Offset) (n : BusSize) : (s.busRead off n).readData = some (s.readValue off n) := rfl
@[simp] theorem busRead_inputs (s : State) (off : Offset) (n : BusSize) : (s.busRead off n).inputs = s.inputs := rfl

/-! ### A pending command write -/

@[simp] theorem withFetchWord_scheme (s : State) (nbits w : Nat) : (s.withFetchWord nbits w).scheme = s.scheme := rfl
@[simp] theorem withFetchWord_gen (s : State) (nbits w : Nat) : (s.withFetchWord nbits w).gen = s.gen := rfl
@[simp] theorem withFetchWord_tagStart (s : State) (nbits w : Nat) : (s.withFetchWord nbits w).tagStart = s.tagStart := rfl
@[simp] theorem withFetchWord_tagStop (s : State) (nbits w : Nat) : (s.withFetchWord nbits w).tagStop = s.tagStop := rfl
@[simp] theorem withFetchWord_tagEsc (s : State) (nbits w : Nat) : (s.withFetchWord nbits w).tagEsc = s.tagEsc := rfl
@[simp] theorem withFetchWord_result (s : State) (nbits w : Nat) : (s.withFetchWord nbits w).result = s.result := rfl
@[simp] theorem withFetchWord_errcode (s : State) (nbits w : Nat) : (s.withFetchWord nbits w).errcode = s.errcode := rfl
@[simp] theorem withFetchWord_rxOvf (s : State) (nbits w : Nat) : (s.withFetchWord nbits w).rxOvf = s.rxOvf := rfl
@[simp] theorem withFetchWord_rem (s : State) (nbits w : Nat) : (s.withFetchWord nbits w).rem = s.rem := rfl
@[simp] theorem withFetchWord_olen (s : State) (nbits w : Nat) : (s.withFetchWord nbits w).olen = s.olen := rfl
@[simp] theorem withFetchWord_consumed (s : State) (nbits w : Nat) : (s.withFetchWord nbits w).consumed = s.consumed := rfl
@[simp] theorem withFetchWord_ibuf (s : State) (nbits w : Nat) : (s.withFetchWord nbits w).ibuf = s.ibuf := rfl
@[simp] theorem withFetchWord_obuf (s : State) (nbits w : Nat) : (s.withFetchWord nbits w).obuf = s.obuf := rfl
@[simp] theorem withFetchWord_rxq (s : State) (nbits w : Nat) : (s.withFetchWord nbits w).rxq = s.rxq := rfl
@[simp] theorem withFetchWord_draws (s : State) (nbits w : Nat) : (s.withFetchWord nbits w).draws = s.draws := rfl
@[simp] theorem withFetchWord_readData (s : State) (nbits w : Nat) : (s.withFetchWord nbits w).readData = s.readData := rfl
@[simp] theorem withFetchWord_inputs (s : State) (nbits w : Nat) : (s.withFetchWord nbits w).inputs = .hostWrite 0x008 (.w32 (BitVec.ofNat 32 (w % 2 ^ nbits))) :: s.inputs := rfl

/-! ### A push: only RXQ and RX_OVF -/

@[simp] theorem push_scheme (s : State) (b : Byte) : (s.push b).scheme = s.scheme := by unfold State.push; split <;> rfl
@[simp] theorem push_gen (s : State) (b : Byte) : (s.push b).gen = s.gen := by unfold State.push; split <;> rfl
@[simp] theorem push_tagStart (s : State) (b : Byte) : (s.push b).tagStart = s.tagStart := by unfold State.push; split <;> rfl
@[simp] theorem push_tagStop (s : State) (b : Byte) : (s.push b).tagStop = s.tagStop := by unfold State.push; split <;> rfl
@[simp] theorem push_tagEsc (s : State) (b : Byte) : (s.push b).tagEsc = s.tagEsc := by unfold State.push; split <;> rfl
@[simp] theorem push_result (s : State) (b : Byte) : (s.push b).result = s.result := by unfold State.push; split <;> rfl
@[simp] theorem push_errcode (s : State) (b : Byte) : (s.push b).errcode = s.errcode := by unfold State.push; split <;> rfl
@[simp] theorem push_rem (s : State) (b : Byte) : (s.push b).rem = s.rem := by unfold State.push; split <;> rfl
@[simp] theorem push_olen (s : State) (b : Byte) : (s.push b).olen = s.olen := by unfold State.push; split <;> rfl
@[simp] theorem push_consumed (s : State) (b : Byte) : (s.push b).consumed = s.consumed := by unfold State.push; split <;> rfl
@[simp] theorem push_ibuf (s : State) (b : Byte) : (s.push b).ibuf = s.ibuf := by unfold State.push; split <;> rfl
@[simp] theorem push_obuf (s : State) (b : Byte) : (s.push b).obuf = s.obuf := by unfold State.push; split <;> rfl
@[simp] theorem push_draws (s : State) (b : Byte) : (s.push b).draws = s.draws := by unfold State.push; split <;> rfl
@[simp] theorem push_readData (s : State) (b : Byte) : (s.push b).readData = s.readData := by unfold State.push; split <;> rfl
@[simp] theorem push_inputs (s : State) (b : Byte) : (s.push b).inputs = s.inputs := by unfold State.push; split <;> rfl

theorem push_of_lt (s : State) (b : Byte) (h : s.rxq.length < Config.rxqDepth) :
    s.push b = { s with rxq := s.rxq ++ [b] } := if_pos h

theorem push_of_full (s : State) (b : Byte) (h : ¬ s.rxq.length < Config.rxqDepth) :
    s.push b = { s with rxOvf := true } := if_neg h

/-! ### REM, when an outcome carries one -/

@[simp] theorem setRem?_scheme (s : State) (r : Option Nat) : (s.setRem? r).scheme = s.scheme := by cases r <;> rfl
@[simp] theorem setRem?_gen (s : State) (r : Option Nat) : (s.setRem? r).gen = s.gen := by cases r <;> rfl
@[simp] theorem setRem?_tagStart (s : State) (r : Option Nat) : (s.setRem? r).tagStart = s.tagStart := by cases r <;> rfl
@[simp] theorem setRem?_tagStop (s : State) (r : Option Nat) : (s.setRem? r).tagStop = s.tagStop := by cases r <;> rfl
@[simp] theorem setRem?_tagEsc (s : State) (r : Option Nat) : (s.setRem? r).tagEsc = s.tagEsc := by cases r <;> rfl
@[simp] theorem setRem?_result (s : State) (r : Option Nat) : (s.setRem? r).result = s.result := by cases r <;> rfl
@[simp] theorem setRem?_errcode (s : State) (r : Option Nat) : (s.setRem? r).errcode = s.errcode := by cases r <;> rfl
@[simp] theorem setRem?_rxOvf (s : State) (r : Option Nat) : (s.setRem? r).rxOvf = s.rxOvf := by cases r <;> rfl
@[simp] theorem setRem?_olen (s : State) (r : Option Nat) : (s.setRem? r).olen = s.olen := by cases r <;> rfl
@[simp] theorem setRem?_consumed (s : State) (r : Option Nat) : (s.setRem? r).consumed = s.consumed := by cases r <;> rfl
@[simp] theorem setRem?_ibuf (s : State) (r : Option Nat) : (s.setRem? r).ibuf = s.ibuf := by cases r <;> rfl
@[simp] theorem setRem?_obuf (s : State) (r : Option Nat) : (s.setRem? r).obuf = s.obuf := by cases r <;> rfl
@[simp] theorem setRem?_rxq (s : State) (r : Option Nat) : (s.setRem? r).rxq = s.rxq := by cases r <;> rfl
@[simp] theorem setRem?_draws (s : State) (r : Option Nat) : (s.setRem? r).draws = s.draws := by cases r <;> rfl
@[simp] theorem setRem?_readData (s : State) (r : Option Nat) : (s.setRem? r).readData = s.readData := by cases r <;> rfl
@[simp] theorem setRem?_inputs (s : State) (r : Option Nat) : (s.setRem? r).inputs = s.inputs := by cases r <;> rfl

@[simp] theorem setRem?_rem_none (s : State) : (s.setRem? none).rem = s.rem := rfl

@[simp] theorem setRem?_rem_some (s : State) (r : Nat) : (s.setRem? (some r)).rem = BitVec.ofNat 32 r := rfl

/-! ### Functions of the configuration alone -/

@[simp] theorem accept_G (s : State) (r : Result) : (s.accept r).G = s.G := rfl
@[simp] theorem reject_G (s : State) (e : ErrCode) : (s.reject e).G = s.G := rfl
@[simp] theorem setOutput_G (s : State) (out : List Byte) : (s.setOutput out).G = s.G := rfl
@[simp] theorem consume_G (s : State) (k : Nat) : (s.consume k).G = s.G := rfl
@[simp] theorem push_G (s : State) (b : Byte) : (s.push b).G = s.G := by simp [State.G]
@[simp] theorem resetAll_G (s : State) : s.resetAll.G = 0 := rfl

end Sys2Proof.Machine
end

