-- ==== Sys2Proof/Laws/Ops.lean ====
section
/-! SUPPORT. What the shared operations do: the command check, the push, and a command's output in memory. -/

namespace Sys2Proof.Machine

/-! ### Accepting and rejecting a command -/

theorem command_accept (s : State) (i : Instr) (f : State → State) (h : s.commandCheck i = .none) :
    s.command i f = f s := by simp [State.command, h]

theorem command_reject (s : State) (i : Instr) (f : State → State) (e : ErrCode) (h : s.commandCheck i = e)
    (he : e ≠ .none) : s.command i f = s.reject e := by
  unfold State.command
  rw [h]
  cases e <;> first | rfl | exact absurd rfl he

/-- Everything a command can do: its effect when the check passes, the rejection with the check's code otherwise. -/
theorem command_cases (s : State) (i : Instr) (f : State → State) :
    (s.commandCheck i = .none ∧ s.command i f = f s)
      ∨ ∃ e, e ≠ .none ∧ s.commandCheck i = e ∧ s.command i f = s.reject e := by
  by_cases h : s.commandCheck i = .none
  · exact .inl ⟨h, command_accept s i f h⟩
  · exact .inr ⟨_, h, rfl, command_reject s i f _ rfl h⟩

theorem tagsOk_iff (s : State) :
    s.tagsOk = true ↔ (s.tagStart ≠ s.tagStop ∧ s.tagStart ≠ s.tagEsc ∧ s.tagStop ≠ s.tagEsc) := by simp [State.tagsOk]

/-- The check passes exactly when the length fits, a generator in use is legal and tags in use are distinct. -/
theorem commandCheck_none_iff (s : State) (i : Instr) :
    s.commandCheck i = .none ↔
      lenTooLong i = false ∧ (s.usesGen i = true → 2 ≤ s.G) ∧ (usesTags i = true → s.tagsOk = true) := by
  unfold State.commandCheck State.genOk
  cases lenTooLong i <;> cases s.usesGen i <;> cases usesTags i <;> by_cases hg : 2 ≤ s.G <;> cases s.tagsOk <;> simp [hg]

theorem check_build {s : State} {n : Nat} (h : n ≤ 64) (hc : FrameConfigOk s) : s.commandCheck (.build n) = .none := by
  refine (commandCheck_none_iff _ _).mpr ⟨by simpa [lenTooLong] using h, fun hg => hc.2 ?_, fun _ => (tagsOk_iff s).mpr hc.1⟩
  simpa [State.usesGen] using hg

theorem check_decode {s : State} (hc : FrameConfigOk s) : s.commandCheck .decode = .none := by
  refine (commandCheck_none_iff _ _).mpr ⟨rfl, fun hg => hc.2 ?_, fun _ => (tagsOk_iff s).mpr hc.1⟩
  simpa [State.usesGen] using hg

theorem rejectCode_ne_none (e : DecodeReject) : rejectCode e ≠ .none := by cases e <;> simp [rejectCode]

/-! ### The receive queue -/

theorem rxqDepth_bounds : 138 ≤ Config.rxqDepth ∧ Config.rxqDepth ≤ 256 := by
  unfold Config.rxqDepth
  have := Config.rxqDepthAbove.isLt
  omega

theorem push_of_room {s : State} {b : Byte} (h : s.rxq.length < Config.rxqDepth) :
    s.push b = { s with rxq := s.rxq ++ [b] } := by
  unfold State.push
  rw [if_pos h]

theorem push_of_no_room {s : State} {b : Byte} (h : Config.rxqDepth ≤ s.rxq.length) :
    s.push b = { s with rxOvf := true } := by
  unfold State.push
  rw [if_neg (by omega)]

/-! ### Memory -/

/-- A state whose IBUF is another's shows the same bytes outside OBUF. -/
theorem sameMemoryButObuf_of_ibuf {s t : State} (h : t.ibuf = s.ibuf) : SameMemoryButObuf s t := by
  intro a ha
  unfold State.memByte
  simp only [Config.ibufBase, Config.ibufSize, Config.obufBase, Config.obufSize]
  rw [h]
  unfold InObuf at ha
  rw [if_neg (c := 0x200 ≤ a ∧ _) (by omega), if_neg (c := 0x200 ≤ a ∧ _) (by omega)]

/-- A fresh OBUF of at most 256 bytes shows them as the output. -/
theorem outputIs_of_fresh {t : State} {d : Nat} {out : List Byte} (hl : out.length ≤ 256)
    (ho : t.obuf = Memory.fresh d Config.obufBase out) (hn : t.olen = out.length) : OutputIs t out := by
  refine ⟨hn, fun i h => ?_⟩
  unfold State.memByte
  simp only [Config.ibufBase, Config.ibufSize, Config.obufBase, Config.obufSize]
  rw [if_neg (by omega), if_pos (by omega), ho, read_fresh]
  simp [Config.obufBase, h]

@[simp] theorem length_input (s : State) (n : Nat) : (s.input n).length = n := by simp [State.input]

end Sys2Proof.Machine
end

