-- ==== Sys2Proof/Laws/Step.lean ====
section
/-! SUPPORT. What one step can do, agent step by agent step, and which Host writes are operations. -/

namespace Sys2Proof.Machine

/-! ### Host writes as operations -/

theorem decodeBytes_word (f : Format) (w : Word) : decodeBytes f (BusValue.w32 w).toBytes = decode f w := by
  unfold decodeBytes BusValue.toBytes
  rw [if_pos (length_leBytes _ _), leValue_leBytes, Nat.mod_eq_of_lt (by have := w.isLt; omega), BitVec.ofNat_toNat]
  simp

/-- A word written to the register of a format is decoded in that format. -/
theorem decodeWrite_port (f : Format) (w : Word) : decodeWrite (portOf f).offset (.w32 w) = decode f w := by
  have : (regAt (portOf f).offset).bind Reg.format? = some f := by cases f <;> decide
  simp [decodeWrite, this, decodeBytes_word]

/-- A write that decodes to an operation or is rejected is a word written to the register of some format. -/
theorem decodeWrite_word {off : Offset} {v : BusValue} (h : decodeWrite off v ≠ .notAnOperation) :
    ∃ f w, v = .w32 w ∧ off = (portOf f).offset ∧ decodeWrite off v = decode f w := by
  unfold decodeWrite at h ⊢
  cases hr : (regAt off).bind Reg.format? with
  | none => rw [hr] at h; exact absurd rfl h
  | some f =>
    rw [hr] at h
    obtain ⟨r, h1, h2⟩ := Option.bind_eq_some_iff.mp hr
    have ho := List.find?_some h1
    simp only [beq_iff_eq] at ho
    cases v with
    | w8 x => exact absurd (by simp [decodeBytes, BusValue.toBytes]) h
    | w16 x => exact absurd (by simp [decodeBytes, BusValue.toBytes]) h
    | w32 w =>
      refine ⟨f, w, rfl, ?_, decodeBytes_word f w⟩
      rw [← ho]
      cases r <;> simp [Reg.format?] at h2 <;> subst h2 <;> rfl

theorem decodeWrite_notRegister {off : Offset} {v : BusValue} (h : regionOf off ≠ .registers) :
    decodeWrite off v = .notAnOperation := by
  have : regAt off = none := by
    unfold regAt
    rw [List.find?_eq_none]
    intro r _ hr
    simp only [beq_iff_eq] at hr
    subst hr
    exact h (by cases r <;> decide)
  simp [decodeWrite, this]

theorem regAt_aligned {off : Offset} {r : Reg} (h : regAt off = some r) : off.toNat % 4 = 0 := by
  have := List.find?_some h
  simp only [beq_iff_eq] at this
  subst this
  cases r <;> decide

/-! ### Steps -/

theorem step_hostWrite (s : State) (rest : List Input) (off : Offset) (v : BusValue) :
    step { s with inputs := .hostWrite off v :: rest } =
      match decodeWrite off v with
      | .instr i => exec i { s with inputs := rest }
      | .reject e => .next (State.reject { s with inputs := rest } (rejectCode e))
      | .notAnOperation => .next (State.busWrite { s with inputs := rest } off v) := by
  simp only [step, State.fetch, State.takeInput]
  cases decodeWrite off v <;> rfl

/-- A word written to a register that carries no operations is that register's plain write. -/
theorem step_regWrite (s : State) (rest : List Input) (r : Reg) (w : Word) (hr : r.format? = none) :
    step { s with inputs := .hostWrite r.offset (.w32 w) :: rest }
      = .next (State.writeReg { s with inputs := rest } w r) := by
  have h1 : regAt r.offset = some r := by cases r <;> decide
  have h2 : regionOf r.offset = .registers := by cases r <;> decide
  have hd : decodeWrite r.offset (.w32 w) = .notAnOperation := by simp [decodeWrite, h1, hr]
  rw [step_hostWrite, hd]
  simp only [State.busWrite, h2, State.writeRegValue, h1]

/-- Everything a step can do, by the agent step it takes. -/
theorem step_cases {s t : State} (h : step s = .next t) :
    (s.inputs = [] ∧ t = s) ∨ ∃ x rest, s.inputs = x :: rest ∧
      ((∃ off n, x = .hostRead off n ∧ t = State.busRead { s with inputs := rest } off n)
      ∨ (∃ b, x = .linePush b ∧ t = State.push { s with inputs := rest } b)
      ∨ (x = .hwReset ∧ t = State.resetAll { s with inputs := rest })
      ∨ ∃ off v, x = .hostWrite off v ∧
        ((∃ i, decodeWrite off v = .instr i ∧ exec i { s with inputs := rest } = .next t)
        ∨ (∃ e, decodeWrite off v = .reject e ∧ t = State.reject { s with inputs := rest } (rejectCode e))
        ∨ (decodeWrite off v = .notAnOperation ∧ t = State.busWrite { s with inputs := rest } off v))) := by
  cases hi : s.inputs with
  | nil =>
    simp only [step, State.fetch, hi, Host.Outcome.next.injEq] at h
    exact .inl ⟨rfl, h.symm⟩
  | cons x rest =>
    refine .inr ⟨x, rest, rfl, ?_⟩
    simp only [step, State.fetch, hi] at h
    cases x with
    | hostRead off n =>
      simp only [State.takeInput, Host.Outcome.next.injEq] at h
      exact .inl ⟨off, n, rfl, h.symm⟩
    | linePush b =>
      simp only [State.takeInput, exec, execRxpush, Host.Outcome.next.injEq] at h
      exact .inr (.inl ⟨b, rfl, h.symm⟩)
    | hwReset =>
      simp only [State.takeInput, Host.Outcome.next.injEq] at h
      exact .inr (.inr (.inl ⟨rfl, h.symm⟩))
    | hostWrite off v =>
      refine .inr (.inr (.inr ⟨off, v, rfl, ?_⟩))
      simp only [State.takeInput] at h
      cases hd : decodeWrite off v <;> rw [hd] at h <;> simp only at h
      · exact .inl ⟨_, rfl, h⟩
      · cases h
        exact .inr (.inl ⟨_, rfl, rfl⟩)
      · cases h
        exact .inr (.inr ⟨rfl, rfl⟩)

@[simp] theorem length_toBytes (v : BusValue) : v.toBytes.length = v.size.bytes := by cases v <;> exact length_leBytes _ _

end Sys2Proof.Machine
end

