-- ==== Sys2Proof/Laws/Draws.lean ====
section
/-! SUPPORT. Draws of unspecified bytes (assumption log 2): a step draws at most once, with the counter's own number. -/

namespace Sys2Proof.Machine

/-- No draw was made between two states. -/
def SameDraws (s t : State) : Prop := t.draws = s.draws ∧ t.ibuf.draw = s.ibuf.draw ∧ t.obuf.draw = s.obuf.draw

/-- OBUF, and perhaps IBUF, holds the draw that the counter numbered, and the counter advanced. -/
def NewDraw (s t : State) : Prop :=
  t.draws = s.draws + 1 ∧ t.obuf.draw = s.draws ∧ (t.ibuf.draw = s.ibuf.draw ∨ t.ibuf.draw = s.draws)

theorem command_draws {s : State} {i : Instr} {f : State → State} (h : NewDraw s (f s)) :
    SameDraws s (s.command i f) ∨ NewDraw s (s.command i f) := by
  rcases command_cases s i f with ⟨-, h'⟩ | ⟨e, -, -, h'⟩ <;> rw [h']
  · exact .inr h
  · exact .inl ⟨rfl, rfl, rfl⟩

theorem push_sameDraws (s : State) (b : Byte) : SameDraws s (s.push b) := by
  unfold State.push
  split <;> exact ⟨rfl, rfl, rfl⟩

theorem exec_draws {i : Instr} {s t : State} (h : exec i s = .next t) : SameDraws s t ∨ NewDraw s t := by
  cases i <;> simp only [exec, execNop, execCrcEnc, execCrcVal, execParEnc, execParVal, execStuff, execBuild, execDecode,
    execRxflush, execRxpush, execSrst, Host.Outcome.next.injEq] at h <;> subst h
  case nop => exact .inl ⟨rfl, rfl, rfl⟩
  case rxflush => exact .inl ⟨rfl, rfl, rfl⟩
  case rxpush b => exact .inl (push_sameDraws s b)
  case srst => exact .inr ⟨rfl, rfl, .inr rfl⟩
  case decode => exact command_draws ⟨by simp [State.settle], by simp [State.settle], .inl (by simp [State.settle])⟩
  all_goals exact command_draws ⟨rfl, rfl, .inl rfl⟩

/-- A step makes at most one draw, and a draw takes a number no earlier draw has: from a state whose buffers' draws lie
below the counter, every step leaves them below it. -/
theorem step_draws {s t : State} (h : step s = .next t) : SameDraws s t ∨ NewDraw s t := by
  rcases step_cases h with ⟨-, rfl⟩ | ⟨x, rest, hi, hx⟩
  · exact .inl ⟨rfl, rfl, rfl⟩
  · rcases hx with ⟨off, n, -, rfl⟩ | ⟨b, -, rfl⟩ | ⟨-, rfl⟩ | ⟨off, v, -, ⟨i, -, he⟩ | ⟨e, -, rfl⟩ | ⟨-, rfl⟩⟩
    · exact .inl ⟨rfl, rfl, rfl⟩
    · exact .inl (push_sameDraws { s with inputs := rest } b)
    · exact .inr ⟨rfl, rfl, .inr rfl⟩
    · exact exec_draws (s := { s with inputs := rest }) he
    · exact .inl ⟨rfl, rfl, rfl⟩
    · refine .inl ?_
      unfold State.busWrite State.writeRegValue
      split
      · cases v <;> simp only
        case w32 w =>
          split
          · next r _ =>
            cases r <;> simp only [State.writeReg] <;> try split
            all_goals exact ⟨rfl, rfl, rfl⟩
          · exact ⟨rfl, rfl, rfl⟩
        all_goals exact ⟨rfl, rfl, rfl⟩
      · split
        · exact ⟨rfl, writeBytes_draw _ _ _, rfl⟩
        · exact ⟨rfl, rfl, rfl⟩
      · exact ⟨rfl, rfl, rfl⟩
      · exact ⟨rfl, rfl, rfl⟩

end Sys2Proof.Machine
end

