-- ==== Sys2Proof/Laws/PerInstr.lean ====
section
/-! SUPPORT. Per-operation facts about the syntax: the encoder writes the bits the opcode table fixes for each row. -/

namespace Sys2Proof.Laws

open Sys2Proof

/-- The mask of an operation's row in spec/opcode_table.json: the bits the row fixes (30_encoding.md R91, R96, R97). -/
def tableMask : Instr → Word
  | .nop => 0xFFFFFFFF
  | .crcEnc _ => 0x0000FFFF
  | .crcVal _ => 0x0000FFFF
  | .parEnc _ => 0x0000FFFF
  | .parVal _ => 0x0000FFFF
  | .stuff _ => 0x0000FFFF
  | .build _ => 0x0000FFFF
  | .decode => 0xFFFFFFFF
  | .rxflush => 0xFFFFFFFF
  | .rxpush _ => 0x00000000
  | .srst => 0x00000002

/-- The match value of an operation's row in spec/opcode_table.json. -/
def tableMatch : Instr → Word
  | .nop => 0x00000000
  | .crcEnc _ => 0x00000001
  | .crcVal _ => 0x00000002
  | .parEnc _ => 0x00000003
  | .parVal _ => 0x00000004
  | .stuff _ => 0x00000005
  | .build _ => 0x00000006
  | .decode => 0x00000007
  | .rxflush => 0x00000008
  | .rxpush _ => 0x00000000
  | .srst => 0x00000002

/-- The encoder's word of a well-formed operation has the fixed bits of the operation's row. -/
def TableBits.Statement (i : Instr) : Prop := i.wellFormed = true → encode i &&& tableMask i = tableMatch i

theorem cmdWord_low (op n : Nat) (ho : op < 256) (hn : lenFits n = true) :
    cmdWord op n &&& 0x0000FFFF = BitVec.ofNat 32 op := by
  simp only [lenFits, decide_eq_true_eq] at hn
  apply BitVec.eq_of_toNat_eq
  rw [BitVec.toNat_and, cmdWord_toNat op n ho hn, show (0x0000FFFF : Word).toNat = 2 ^ 16 - 1 from rfl,
    Nat.and_two_pow_sub_one_eq_mod, BitVec.toNat_ofNat]
  omega

theorem TableBits.nop : TableBits.Statement .nop := fun _ => by decide
theorem TableBits.crcEnc (n : Nat) : TableBits.Statement (.crcEnc n) := fun h => cmdWord_low 1 n (by decide) h
theorem TableBits.crcVal (n : Nat) : TableBits.Statement (.crcVal n) := fun h => cmdWord_low 2 n (by decide) h
theorem TableBits.parEnc (n : Nat) : TableBits.Statement (.parEnc n) := fun h => cmdWord_low 3 n (by decide) h
theorem TableBits.parVal (n : Nat) : TableBits.Statement (.parVal n) := fun h => cmdWord_low 4 n (by decide) h
theorem TableBits.stuff (n : Nat) : TableBits.Statement (.stuff n) := fun h => cmdWord_low 5 n (by decide) h
theorem TableBits.build (n : Nat) : TableBits.Statement (.build n) := fun h => cmdWord_low 6 n (by decide) h
theorem TableBits.decode : TableBits.Statement .decode := fun _ => by decide
theorem TableBits.rxflush : TableBits.Statement .rxflush := fun _ => by decide
theorem TableBits.rxpush (b : Byte) : TableBits.Statement (.rxpush b) := fun _ => by simp [tableMask, tableMatch]
theorem TableBits.srst : TableBits.Statement .srst := fun _ => by decide

end Sys2Proof.Laws
end

