-- ==== Sys2Proof/Laws/Receive.lean ====
section
/-! SUPPORT. The two phases of a decoder call byte by byte, induction along each, and where each can end. -/

namespace Sys2Proof.Machine

variable (s : State)

/-! ### Phase 1 -/

theorem seekStart_nil (i : Nat) : s.seekStart i [] = .exhausted i := by simp [State.seekStart]

theorem seekStart_start (i : Nat) (q : List Byte) : s.seekStart i (s.tagStart :: q) = .found i q := by
  rw [State.seekStart.eq_def]
  simp

theorem seekStart_esc_nil (h : s.tagEsc ≠ s.tagStart) (i : Nat) : s.seekStart i [s.tagEsc] = .exhausted i := by
  simp [State.seekStart, h]

theorem seekStart_esc (h : s.tagEsc ≠ s.tagStart) (i : Nat) (c : Byte) (q : List Byte) :
    s.seekStart i (s.tagEsc :: c :: q) = s.seekStart (i + 2) q := by simp [State.seekStart, h]

theorem seekStart_other (i : Nat) (b : Byte) (q : List Byte) (h1 : b ≠ s.tagStart) (h2 : b ≠ s.tagEsc) :
    s.seekStart i (b :: q) = s.seekStart (i + 1) q := by
  rw [State.seekStart.eq_def]
  simp only
  rw [if_neg h1, if_neg h2]

/-- Induction along phase 1. -/
theorem seekStart_induct {P : List Byte → Prop} (nil : P []) (start : ∀ q, P (s.tagStart :: q))
    (escNil : s.tagEsc ≠ s.tagStart → P [s.tagEsc])
    (esc : s.tagEsc ≠ s.tagStart → ∀ c q, P q → P (s.tagEsc :: c :: q))
    (other : ∀ b q, b ≠ s.tagStart → b ≠ s.tagEsc → P q → P (b :: q)) : ∀ q, P q := by
  have key : ∀ n, ∀ q : List Byte, q.length ≤ n → P q := by
    intro n
    induction n with
    | zero =>
      intro q h
      obtain rfl : q = [] := List.length_eq_zero_iff.mp (by omega)
      exact nil
    | succ n ih =>
      intro q h
      match q with
      | [] => exact nil
      | b :: q =>
        simp only [List.length_cons] at h
        by_cases h1 : b = s.tagStart
        · subst h1; exact start q
        by_cases h2 : b = s.tagEsc
        · subst h2
          match q with
          | [] => exact escNil h1
          | c :: q => exact esc h1 c q (ih q (by simp only [List.length_cons] at h; omega))
        · exact other b q h1 h2 (ih q (by omega))
  exact fun q => key _ q le_rfl

/-- Phase 1 from index `i` is phase 1 from 0, its indices moved by `i`. -/
theorem seekStart_shift (q : List Byte) : ∀ i, s.seekStart i q = match s.seekStart 0 q with
    | .exhausted k => .exhausted (k + i)
    | .found k r => .found (k + i) r := by
  induction q using seekStart_induct s with
  | nil => intro i; simp [seekStart_nil]
  | start q => intro i; simp [seekStart_start]
  | escNil h => intro i; simp [seekStart_esc_nil s h]
  | esc h c q ih =>
    intro i
    rw [seekStart_esc s h, seekStart_esc s h, ih, ih (0 + 2)]
    cases s.seekStart 0 q <;> simp <;> omega
  | other b q h1 h2 ih =>
    intro i
    rw [seekStart_other s _ _ _ h1 h2, seekStart_other s _ _ _ h1 h2, ih, ih (0 + 1)]
    cases s.seekStart 0 q <;> simp <;> omega

/-- Everything phase 1 can answer: the end of the queue, a trailing ESC, or a START with the bytes after it. -/
theorem seekStart_spec (q : List Byte) : match s.seekStart 0 q with
    | .exhausted k => k = q.length ∨ (k + 1 = q.length ∧ q[k]? = some s.tagEsc)
    | .found k r => q.drop k = s.tagStart :: r ∧ k + 1 + r.length = q.length := by
  induction q using seekStart_induct s with
  | nil => simp [seekStart_nil]
  | start q => simp [seekStart_start]; omega
  | escNil h => simp [seekStart_esc_nil s h]
  | esc h c q ih =>
    rw [seekStart_esc s h, seekStart_shift]
    cases hq : s.seekStart 0 q <;> rw [hq] at ih <;> simp at ih ⊢
    · exact ih
    · exact ⟨ih.1, by omega⟩
  | other b q h1 h2 ih =>
    rw [seekStart_other s _ _ _ h1 h2, seekStart_shift]
    cases hq : s.seekStart 0 q <;> rw [hq] at ih <;> simp at ih ⊢
    · exact ih
    · exact ⟨ih.1, by omega⟩

/-! ### Phase 2 -/

theorem accumulate_nil (st : Nat) (g : List Byte) (j : Nat) : s.accumulate st g j [] = .incomplete st := by
  simp [State.accumulate]

theorem accumulate_esc_nil (st : Nat) (g : List Byte) (j : Nat) : s.accumulate st g j [s.tagEsc] = .incomplete st := by
  simp [State.accumulate]

theorem accumulate_esc (st : Nat) (g : List Byte) (j : Nat) (c : Byte) (q : List Byte) :
    s.accumulate st g j (s.tagEsc :: c :: q) = s.accumulate st (g ++ [c]) (j + 2) q := by simp [State.accumulate]

theorem accumulate_stop (st : Nat) (g : List Byte) (j : Nat) (q : List Byte) (h : s.tagStop ≠ s.tagEsc) :
    s.accumulate st g j (s.tagStop :: q) = .closed (j + 1) g := by
  rw [State.accumulate.eq_def]
  simp only
  rw [if_neg h, if_pos trivial]

theorem accumulate_start (st : Nat) (g : List Byte) (j : Nat) (q : List Byte) (h : s.tagStart ≠ s.tagEsc)
    (h' : s.tagStart ≠ s.tagStop) : s.accumulate st g j (s.tagStart :: q) = s.accumulate j [] (j + 1) q := by
  rw [State.accumulate.eq_def]
  simp only
  rw [if_neg h, if_neg h', if_pos trivial]

theorem accumulate_other (st : Nat) (g : List Byte) (j : Nat) (b : Byte) (q : List Byte) (h : b ≠ s.tagEsc)
    (h' : b ≠ s.tagStop) (h'' : b ≠ s.tagStart) :
    s.accumulate st g j (b :: q) = s.accumulate st (g ++ [b]) (j + 1) q := by
  rw [State.accumulate.eq_def]
  simp only
  rw [if_neg h, if_neg h', if_neg h'']

/-- Induction along phase 2. -/
theorem accumulate_induct {P : List Byte → Prop} (nil : P []) (escNil : P [s.tagEsc])
    (esc : ∀ c q, P q → P (s.tagEsc :: c :: q)) (stop : s.tagStop ≠ s.tagEsc → ∀ q, P (s.tagStop :: q))
    (start : s.tagStart ≠ s.tagEsc → s.tagStart ≠ s.tagStop → ∀ q, P q → P (s.tagStart :: q))
    (other : ∀ b q, b ≠ s.tagEsc → b ≠ s.tagStop → b ≠ s.tagStart → P q → P (b :: q)) : ∀ q, P q := by
  have key : ∀ n, ∀ q : List Byte, q.length ≤ n → P q := by
    intro n
    induction n with
    | zero =>
      intro q h
      obtain rfl : q = [] := List.length_eq_zero_iff.mp (by omega)
      exact nil
    | succ n ih =>
      intro q h
      match q with
      | [] => exact nil
      | b :: q =>
        simp only [List.length_cons] at h
        by_cases h1 : b = s.tagEsc
        · subst h1
          match q with
          | [] => exact escNil
          | c :: q => exact esc c q (ih q (by simp only [List.length_cons] at h; omega))
        by_cases h2 : b = s.tagStop
        · subst h2; exact stop h1 q
        by_cases h3 : b = s.tagStart
        · subst h3; exact start h1 h2 q (ih q (by omega))
        · exact other b q h1 h2 h3 (ih q (by omega))
  exact fun q => key _ q le_rfl

/-- Moving both indices of phase 2 moves the index it answers. -/
theorem accumulate_shift (q : List Byte) : ∀ st g j d, s.accumulate (st + d) g (j + d) q = match s.accumulate st g j q with
    | .incomplete k => .incomplete (k + d)
    | .closed k b => .closed (k + d) b := by
  induction q using accumulate_induct s with
  | nil => intros; simp [accumulate_nil]
  | escNil => intros; simp [accumulate_esc_nil]
  | esc c q ih => intro st g j d; rw [accumulate_esc, accumulate_esc, ← ih]; congr 1; omega
  | stop h q => intro st g j d; simp [accumulate_stop _ _ _ _ _ h]; omega
  | start h h' q ih =>
    intro st g j d
    rw [accumulate_start _ _ _ _ _ h h', accumulate_start _ _ _ _ _ h h', ← ih]
    congr 1
    omega
  | other b q h h' h'' ih =>
    intro st g j d
    rw [accumulate_other _ _ _ _ _ _ h h' h'', accumulate_other _ _ _ _ _ _ h h' h'', ← ih]
    congr 1
    omega

/-- Everything phase 2 can answer, `Q` the whole queue, its rest `q` at the cursor `j` and a START at `st` before it: a
START at or after `st` stays, or a STOP lies just before the index answered. -/
theorem accumulate_spec (Q : List Byte) (q : List Byte) : ∀ st g j, Q.drop j = q → j + q.length = Q.length → st < j →
    Q[st]? = some s.tagStart → g.length + st + 1 ≤ j → match s.accumulate st g j q with
    | .incomplete k => st ≤ k ∧ Q[k]? = some s.tagStart
    | .closed k staged => j < k ∧ k ≤ Q.length ∧ Q[k - 1]? = some s.tagStop ∧ staged.length + 2 ≤ k := by
  have first : ∀ {b : Byte} {q : List Byte} {j : Nat}, Q.drop j = b :: q → Q[j]? = some b := by
    intro b q j h
    have h0 := congrArg (fun l => l[0]?) h
    simpa using h0
  induction q using accumulate_induct s with
  | nil => intro st g j h1 h2 h3 h4 h5; simp [accumulate_nil, h4]
  | escNil => intro st g j h1 h2 h3 h4 h5; simp [accumulate_esc_nil, h4]
  | esc c q ih =>
    intro st g j h1 h2 h3 h4 h5
    rw [accumulate_esc]
    simp only [List.length_cons] at h2
    have := ih st (g ++ [c]) (j + 2) (by rw [← List.drop_drop, h1]; rfl) (by omega) (by omega) h4 (by simp; omega)
    cases hq : s.accumulate st (g ++ [c]) (j + 2) q <;> rw [hq] at this <;> simp at this ⊢
    · exact this
    · exact ⟨by omega, this.2⟩
  | stop h q =>
    intro st g j h1 h2 h3 h4 h5
    rw [accumulate_stop _ _ _ _ _ h]
    simp only [List.length_cons] at h2
    exact ⟨by omega, by omega, by simpa using first h1, by omega⟩
  | start h h' q ih =>
    intro st g j h1 h2 h3 h4 h5
    rw [accumulate_start _ _ _ _ _ h h']
    simp only [List.length_cons] at h2
    have := ih j [] (j + 1) (by rw [← List.drop_drop, h1]; rfl) (by omega) (by omega) (first h1) (by simp)
    cases hq : s.accumulate j [] (j + 1) q <;> rw [hq] at this <;> simp at this ⊢
    · exact ⟨by omega, this.2⟩
    · exact ⟨by omega, this.2⟩
  | other b q h h' h'' ih =>
    intro st g j h1 h2 h3 h4 h5
    rw [accumulate_other _ _ _ _ _ _ h h' h'']
    simp only [List.length_cons] at h2
    have := ih st (g ++ [b]) (j + 1) (by rw [← List.drop_drop, h1]; rfl) (by omega) (by omega) h4 (by simp; omega)
    cases hq : s.accumulate st (g ++ [b]) (j + 1) q <;> rw [hq] at this <;> simp at this ⊢
    · exact this
    · exact ⟨by omega, this.2⟩

/-! ### Phase 3 and the call -/

theorem validateBody_ne_noFrame (g : List Byte) : s.validateBody g ≠ .noFrame := by
  unfold State.validateBody
  split_ifs <;> simp

theorem length_payload_validateBody (g : List Byte) : (s.validateBody g).payload.length ≤ g.length := by
  unfold State.validateBody
  split_ifs <;> simp [DecodeOutcome.payload]

/-- A decoder call removes no more than the queue holds. -/
theorem decodeStep_le (Q : List Byte) : (s.decodeStep Q).2 ≤ Q.length := by
  unfold State.decodeStep
  have h1 := seekStart_spec s Q
  cases hq : s.seekStart 0 Q with
  | exhausted k =>
    rw [hq] at h1
    simp only at h1 ⊢
    omega
  | found i q =>
    rw [hq] at h1
    simp only at h1 ⊢
    have h0 := congrArg (fun l => l[0]?) h1.1
    have hi : Q[i]? = some s.tagStart := by simpa using h0
    have h2 := accumulate_spec s Q q i [] (i + 1) (by rw [← List.drop_drop, h1.1]; rfl) (by omega) (by omega) hi (by simp)
    cases ha : s.accumulate i [] (i + 1) q with
    | incomplete k =>
      rw [ha] at h2
      have := (List.getElem?_eq_some_iff.mp h2.2).1
      simp only
      omega
    | closed k g =>
      rw [ha] at h2
      exact h2.2.1

end Sys2Proof.Machine
end

