-- ==== Sys2Proof/Laws/Wire.lean ====
section
/-! SUPPORT. The small lemmas of wire pieces: their bytes, and the pieces of a stuffed body. -/

namespace Sys2Proof.Machine

@[simp] theorem wirePieces_nil (s : State) : s.wirePieces [] = [] := rfl

@[simp] theorem wirePieces_plain (s : State) (b : Byte) (ps : List Piece) :
    s.wirePieces (.plain b :: ps) = b :: s.wirePieces ps := rfl

@[simp] theorem wirePieces_escaped (s : State) (b : Byte) (ps : List Piece) :
    s.wirePieces (.escaped b :: ps) = s.tagEsc :: b :: s.wirePieces ps := rfl

@[simp] theorem piece_byte_plain (b : Byte) : (Piece.plain b).byte = b := rfl

@[simp] theorem piece_byte_escaped (b : Byte) : (Piece.escaped b).byte = b := rfl

@[simp] theorem isBody_escaped (s : State) (b : Byte) : s.IsBody (.escaped b) := trivial

@[simp] theorem isGarbage_escaped (s : State) (b : Byte) : s.IsGarbage (.escaped b) := trivial

/-- The pieces the stuffer makes of a body: a tag escaped, every other byte as it is. -/
def State.stuffPieces (s : State) (bs : List Byte) : List Piece :=
  bs.map fun b => if s.isTag b then .escaped b else .plain b

/-- A stuffed body is the wire form of its pieces. -/
theorem stuffed_eq_wirePieces (s : State) (bs : List Byte) : s.stuffed bs = s.wirePieces (s.stuffPieces bs) := by
  induction bs with
  | nil => rfl
  | cons b bs ih =>
    simp only [State.stuffed, State.stuffPieces, List.map_cons]
    split <;> simp [ih, State.stuffPieces]

theorem stuffPieces_isBody (s : State) (bs : List Byte) : ∀ p ∈ s.stuffPieces bs, s.IsBody p := by
  intro p hp
  obtain ⟨b, -, rfl⟩ := List.mem_map.mp hp
  split
  · trivial
  · next h =>
    simp only [State.isTag, Bool.or_eq_true, beq_iff_eq, not_or] at h
    exact ⟨h.1.1, h.1.2, h.2⟩

theorem stuffPieces_bytes (s : State) (bs : List Byte) : (s.stuffPieces bs).map Piece.byte = bs := by
  induction bs with
  | nil => rfl
  | cons b bs ih =>
    simp only [State.stuffPieces, List.map_cons, List.cons.injEq]
    exact ⟨by split <;> rfl, ih⟩

end Sys2Proof.Machine
end

