-- ==== Sys2Proof/Tests/Slice0.lean ====
section
/-! SUPPORT. Tests: ill-formed terms, decoding of words written out bit by bit, one step per operation on the vectors of
95_test_vectors.md, and for every statement with hypotheses a state and operands that meet them. -/

namespace Sys2Proof.Tests

open Sys2Proof Sys2Proof.Machine

/-! ### Ill-formed terms: one per check of WellFormed (LEN has 16 bits, 30_encoding.md R92) -/

theorem test_ill_formed_crcEnc : (Instr.crcEnc 65536).wellFormed = false := by decide
theorem test_ill_formed_crcVal : (Instr.crcVal 65536).wellFormed = false := by decide
theorem test_ill_formed_parEnc : (Instr.parEnc 65536).wellFormed = false := by decide
theorem test_ill_formed_parVal : (Instr.parVal 65536).wellFormed = false := by decide
theorem test_ill_formed_stuff : (Instr.stuff 65536).wellFormed = false := by decide
theorem test_ill_formed_build : (Instr.build 65536).wellFormed = false := by decide

/-! ### Decoding: LEN, RSVD and OPCODE of each word written out from 30_encoding.md R91 and R93 -/

theorem test_decode_nop : decode .cmd 0b0000000000000000_00000000_00000000 = .instr .nop := by decide
theorem test_decode_crcEnc : decode .cmd 0b0000000001000000_00000000_00000001 = .instr (.crcEnc 64) := by decide
theorem test_decode_crcVal : decode .cmd 0b0000000000000100_00000000_00000010 = .instr (.crcVal 4) := by decide
theorem test_decode_parEnc : decode .cmd 0b0000000000000010_00000000_00000011 = .instr (.parEnc 2) := by decide
theorem test_decode_parVal : decode .cmd 0b0000000000000011_00000000_00000100 = .instr (.parVal 3) := by decide
theorem test_decode_stuff : decode .cmd 0b1000000000000001_00000000_00000101 = .instr (.stuff 32769) := by decide
theorem test_decode_build : decode .cmd 0b1111111111111111_00000000_00000110 = .instr (.build 65535) := by decide
theorem test_decode_decode : decode .cmd 0b0000000000000000_00000000_00000111 = .instr .decode := by decide
theorem test_decode_rxflush : decode .cmd 0b0000000000000000_00000000_00001000 = .instr .rxflush := by decide

/-- RXDATA: bits 7:0 are the byte, bits 31:8 are ignored (30_encoding.md R96). -/
theorem test_decode_rxpush : decode .rxdata 0b111111111111111111111111_01111011 = .instr (.rxpush 0x7B) := by decide

/-- CTRL: bit 1 selects SRST whatever bit 0 is (30_encoding.md R97). -/
theorem test_decode_srst : decode .ctrl 0b000000000000000000000000000000_1_1 = .instr .srst := by decide
theorem test_decode_ctrl_without_srst : decode .ctrl 0b111111111111111111111111111111_0_1 = .notAnOperation := by decide

/-- The first reserved opcode, and OPCODE checked before RSVD (30_encoding.md R94, R95). -/
theorem test_decode_illegal_opcode :
    decode .cmd 0x00000009 = .reject .illegalOpcode ∧ decode .cmd 0x00FF01FF = .reject .illegalOpcode := by decide

/-- RSVD set, and LEN set on a command that takes none (30_encoding.md R94, R95). -/
theorem test_decode_reserved_field :
    decode .cmd 0x00020101 = .reject .reservedField ∧ decode .cmd 0x00010007 = .reject .reservedField := by decide

/-- The table reading of a word and the step that runs it: `build 2` is 0x00020006 (30_encoding.md R98). -/
theorem test_decodeTableWord : decodeTableWord 32 0x00020006 = some (.build 2) := by decide
theorem test_withFetchWord : (State.reset.withFetchWord 32 0x00020006).fetch = .run (.build 2) State.reset := by decide

/-! ### One step of each operation -/

/-- A state after reset with a configuration, a payload at IBUF[0] and a receive queue. -/
def ready (c : Scheme) (G : Nat) (payload queue : List Byte) : State :=
  { State.reset with
    scheme := c, gen := BitVec.ofNat 33 G, ibuf := State.reset.ibuf.writeBytes 0x100 payload, rxq := queue }

/-- What the Host can see of a next state: RESULT, ERRCODE, OBUF[0..OLEN), REM, CONSUMED and RXQ. -/
structure Seen where
  result : Result
  errcode : ErrCode
  out : List Byte
  rem : Nat
  consumed : Nat
  rxq : List Byte
deriving DecidableEq

/-- What the Host can see after an operation that answers a next state. -/
def seen (o : Host.Outcome State Fault Refusal) : Option Seen :=
  match o with
  | .next t => some ⟨t.result, t.errcode, t.obuf.readBytes 0x200 t.olen, t.rem.toNat, t.consumed, t.rxq⟩
  | .fault _ => none
  | .refused _ => none

theorem test_nop : seen (exec .nop (State.reject (ready .crc 0 [] [0x41]) .badTags)) = some ⟨.ok, .none, [], 0, 0, [0x41]⟩ := by
  decide +kernel

/-- 95_test_vectors.md 2.1: G = 0x18005, payload 41 42. -/
theorem test_crcEnc_degree_16 :
    seen (exec (.crcEnc 2) (ready .parity 0x18005 [0x41, 0x42] [])) = some ⟨.ok, .none, [0x07, 0x89], 0x789, 0, []⟩ := by
  decide +kernel

/-- 95_test_vectors.md 2.1: G = 0x25 of degree 5, the code is R << 3. -/
theorem test_crcEnc_degree_5 :
    seen (exec (.crcEnc 2) (ready .crc 0x25 [0x41, 0x42] [])) = some ⟨.ok, .none, [0xB8], 0x17, 0, []⟩ := by decide +kernel

/-- 95_test_vectors.md 2.2: a valid coded sequence, and one with its last bit flipped. -/
theorem test_crcVal_valid :
    seen (exec (.crcVal 4) (ready .crc 0x18005 [0x41, 0x42, 0x07, 0x89] [])) = some ⟨.ok, .none, [], 0, 0, []⟩ := by
  decide +kernel
theorem test_crcVal_invalid :
    seen (exec (.crcVal 4) (ready .crc 0x18005 [0x41, 0x42, 0x07, 0x88] []))
      = some ⟨.integrityCheckFailed, .none, [], 1, 0, []⟩ := by decide +kernel

/-- Parity is the number of one bits modulo 2 (41_parity.md R142): 41 43 has 2 + 3 of them. -/
theorem test_parEnc : seen (exec (.parEnc 2) (ready .crc 0 [0x41, 0x43] [])) = some ⟨.ok, .none, [0x01], 1, 0, []⟩ := by
  decide +kernel
theorem test_parVal :
    seen (exec (.parVal 2) (ready .crc 0 [0x41, 0x43] [])) = some ⟨.integrityCheckFailed, .none, [], 1, 0, []⟩ := by
  decide +kernel

/-- 42_stuff_build.md R161: each of the three tags is escaped. -/
theorem test_stuff : seen (exec (.stuff 4) (ready .crc 0 [0x7B, 0x41, 0x7D, 0x5C] []))
    = some ⟨.ok, .none, [0x5C, 0x7B, 0x41, 0x5C, 0x7D, 0x5C, 0x5C], 0, 0, []⟩ := by decide +kernel

/-- 95_test_vectors.md 1.2: the code is the single byte 53. -/
theorem test_build_crc : seen (exec (.build 3) (ready .crc 0x107 [0x7B, 0x7D, 0x5C] []))
    = some ⟨.ok, .none, [0x7B, 0x5C, 0x7B, 0x5C, 0x7D, 0x5C, 0x5C, 0x53, 0x7D], 0x53, 0, []⟩ := by decide +kernel

/-- 95_test_vectors.md 1.6. -/
theorem test_build_parity :
    seen (exec (.build 1) (ready .parity 0 [0x7B] [])) = some ⟨.ok, .none, [0x7B, 0x5C, 0x7B, 0x00, 0x7D], 0, 0, []⟩ := by
  decide +kernel

/-- 95_test_vectors.md 1.5: garbage, then a frame under the parity scheme. -/
theorem test_decode_step_frame :
    seen (exec .decode (ready .parity 0 [] [0x11, 0x22, 0x7B, 0x41, 0x42, 0x00, 0x7D, 0x33]))
      = some ⟨.frame, .none, [0x41, 0x42], 0, 7, [0x33]⟩ := by decide +kernel

/-- 95_test_vectors.md 1.5: the same frame under G = 0x18005. -/
theorem test_decode_step_corrupt :
    seen (exec .decode (ready .crc 0x18005 [] [0x11, 0x22, 0x7B, 0x41, 0x42, 0x00, 0x7D]))
      = some ⟨.integrityCheckFailed, .none, [], 0x4386, 7, []⟩ := by decide +kernel

theorem test_rxflush : seen (exec .rxflush (ready .crc 0 [] [0x7B, 0x41])) = some ⟨.ok, .none, [], 0, 2, []⟩ := by
  decide +kernel

theorem test_rxpush : seen (exec (.rxpush 0x42) (ready .crc 0 [] [0x41])) = some ⟨.ok, .none, [], 0, 0, [0x41, 0x42]⟩ := by
  decide +kernel

theorem test_srst : seen (exec .srst (ready .parity 0x107 [] [0x41])) = some ⟨.ok, .none, [], 0, 0, []⟩ := by decide +kernel

/-- Tags that are not distinct are rejected, with STATUS 0x00000256 (95_test_vectors.md 3). -/
theorem test_stuff_badTags :
    (match exec (.stuff 1) { ready .crc 0 [0x41] [] with tagStop := 0x7B } with
      | .next t => t.result.code + 16 * t.errcode.code + 512 * bit t.rxEmpty
      | .fault _ => 0
      | .refused _ => 0) = 0x256 := by decide +kernel

/-! ### Witnesses: for every statement with hypotheses or clauses, a case that meets them -/

/-- A full receive queue: one START and then zeros. -/
def fullQueue : List Byte := 0x7B :: List.replicate (Config.rxqDepth - 1) 0

theorem length_fullQueue : fullQueue.length = Config.rxqDepth := by
  have := rxqDepth_bounds
  simp only [fullQueue, List.length_cons, List.length_replicate]
  omega

theorem wirePieces_zeros (n : Nat) : State.reset.wirePieces (List.replicate n (.plain 0)) = List.replicate n 0 := by
  induction n with
  | zero => rfl
  | succ n ih => rw [List.replicate_succ, wirePieces_plain, ih, List.replicate_succ]

theorem witness_DecodeOfEncodeGivesTheOperation :
    (Instr.crcEnc 65535).wellFormed = true ∧ (Instr.rxpush 0xFF).wellFormed = true ∧ Instr.srst.wellFormed = true := by decide

theorem witness_CommandWordIsTheOneEncodingOfItsOperation :
    decode .cmd 0xFFFF0006 = .instr (.build 65535) ∧ decode .cmd 0x00000008 = .instr .rxflush := by decide

/-- One word for each clause: OPCODE 9 and 8, RSVD 1, LEN 1 on a command without LEN, LEN 0 and 65535. -/
theorem witness_CommandDecodingFollowsTheProcedure :
    decode .cmd 0x00000009 = .reject .illegalOpcode ∧ decode .cmd 0x00000108 = .reject .reservedField
      ∧ decode .cmd 0x00010008 = .reject .reservedField ∧ decode .cmd 0x00000001 = .instr (.crcEnc 0)
      ∧ decode .cmd 0xFFFF0006 = .instr (.build 65535) := by decide

theorem witness_StepRunsTheDecodedOperation :
    (State.reset.withFetchWord 32 7).inputs = [.hostWrite 0x008 (.w32 7)]
      ∧ decodeWrite 0x008 (.w32 7) = .instr .decode := by decide

theorem witness_WritingTheEncodedWordRunsTheOperation :
    (Instr.stuff 65535).wellFormed = true ∧ (Instr.rxpush 0).wellFormed = true ∧ Instr.srst.wellFormed = true := by decide

/-- Words with bit 1 set and clear, bit 0 set and clear. -/
theorem witness_RxdataAndCtrlWritesPushAndReset :
    (0x3 : Word).toNat / 2 % 2 = 1 ∧ (0x1 : Word).toNat / 2 % 2 ≠ 1 ∧ (0xFFFFFFFC : Word).toNat % 2 = 0 := by decide

theorem witness_UndecodableCommandWordOnlyWritesStatus :
    8 < (0x00000009 : Word).toNat % 256 ∧ (0x00000101 : Word).toNat / 256 % 256 ≠ 0
      ∧ (0x00010000 : Word).toNat % 256 = 0 ∧ (0x00010000 : Word).toNat / 65536 ≠ 0 := by decide

theorem witness_StepsThatAreNoBusAccess : State.reset.inputs = [] := rfl

theorem witness_StepsTakeTheInputsInOrder :
    ∃ t, step { State.reset with inputs := [.hwReset, .linePush 1] } = .next t ∧ t.inputs = [.linePush 1] := ⟨_, rfl, rfl⟩

/-- A state that meets the invariant, with bytes in IBUF and OBUF, a nonempty queue and a step to come. -/
theorem witness_EveryStepKeepsTheInvariant :
    State.Inv { ready .parity 3 [0x41, 0x42] [0x7B] with
        obuf := ⟨1, [(0x200, 0x41)]⟩, olen := 1, draws := 2, consumed := 138, inputs := [.linePush 0x41] }
      ∧ ∃ t, step { ready .parity 3 [0x41, 0x42] [0x7B] with
        obuf := ⟨1, [(0x200, 0x41)]⟩, olen := 1, draws := 2, consumed := 138, inputs := [.linePush 0x41] } = .next t := by
  have := rxqDepth_bounds
  refine ⟨⟨by decide, by decide, by decide, by decide, by decide, ?_, ?_, by decide⟩, _, rfl⟩
  · show 1 ≤ Config.rxqDepth
    omega
  · show 138 ≤ Config.rxqDepth
    omega

theorem witness_NoCommandChangesConfigurationOrInput :
    (Instr.build 1).format = .cmd ∧ ∃ t, exec (.build 1) (ready .parity 0 [0x7B] []) = .next t ∧ t.result = .ok :=
  ⟨rfl, _, rfl, by decide +kernel⟩

/-- RX_OVF set by a push on a full queue, and cleared by a write of STATUS bit 8. -/
theorem witness_OverflowFlagChangesOnlyAsStated :
    (∃ t, step { State.reset with rxq := fullQueue, inputs := [.linePush 1] } = .next t ∧ t.rxOvf = true)
      ∧ ∃ t, step { State.reset with rxOvf := true, inputs := [.hostWrite 0x004 (.w32 0x100)] } = .next t
        ∧ t.rxOvf = false := by
  refine ⟨⟨_, rfl, ?_⟩, ⟨_, rfl, by decide +kernel⟩⟩
  rw [push_of_no_room]
  exact length_fullQueue.ge

theorem witness_ResultChangesOnlyByCommandOrReset :
    ∃ t, step { State.reset with inputs := [.hostWrite 0x008 (.w32 7)] } = .next t ∧ t.result ≠ State.reset.result :=
  ⟨_, rfl, by decide +kernel⟩

/-- A step that appends, and one that removes everything. -/
theorem witness_QueueChangesOnlyByAppendOrPrefixRemoval :
    (∃ t, step { State.reset with inputs := [.linePush 1] } = .next t ∧ t.rxq = [1])
      ∧ ∃ t, step { ready .crc 0 [] [1, 2] with inputs := [.hwReset] } = .next t ∧ t.rxq = [] :=
  ⟨⟨_, rfl, by decide +kernel⟩, ⟨_, rfl, rfl⟩⟩

theorem witness_OverlongLenIsRejectedBeforeAnythingElse :
    64 < 65 ∧ Instr.build 65 ∈ [Instr.crcEnc 65, .crcVal 65, .parEnc 65, .parVal 65, .stuff 65, .build 65] := by decide

/-- G = 0 and G = 1, LEN = 64, the CRC scheme. -/
theorem witness_IllegalGeneratorIsRejected :
    64 ≤ 64 ∧ (ready .crc 0 [] []).G < 2 ∧ (ready .crc 1 [] []).G < 2 ∧ (ready .crc 1 [] []).scheme = .crc := by decide

/-- Each pair of tags equal, under the parity scheme and under the CRC scheme with G = 2. -/
theorem witness_IndistinctTagsAreRejected :
    64 ≤ 64 ∧ State.tagStart { ready .parity 0 [] [] with tagStop := 0x7B } = 0x7B
      ∧ State.tagEsc { ready .crc 2 [] [] with tagEsc := 0x7B } = State.tagStart (ready .crc 2 [] [])
      ∧ State.tagEsc { ready .crc 2 [] [] with tagEsc := 0x7D } = State.tagStop (ready .crc 2 [] [])
      ∧ 2 ≤ (ready .crc 2 [] []).G := by decide

theorem witness_CrcEncWritesCodeAndRemainder :
    64 ≤ 64 ∧ 2 ≤ (ready .crc 2 [] []).G ∧ 2 ≤ (ready .parity 0x1FFFFFFFF [] []).G := by decide

theorem witness_CrcValReportsTheRemainder :
    64 ≤ 64 ∧ 2 ≤ (ready .crc 2 [] []).G
      ∧ crcRemainder 2 ((ready .crc 2 [0x80] []).input 1) = 0 ∧ crcRemainder 2 ((ready .crc 2 [0x01] []).input 1) = 1 := by
  decide +kernel

/-- The least generator, of degree 0, and the largest register of degree 1. -/
theorem witness_RegisterStaysBelowTheDegree : 1 ≤ 1 ∧ 0 < 2 ^ degree 1 ∧ 1 ≤ 3 ∧ 1 < 2 ^ degree 3 := by decide

theorem witness_DivisionIsThePolynomialRemainder : 1 ≤ 1 ∧ divBits 3 [true, false, false] = 1 := by decide

theorem witness_CrcCodeIsTheShiftedRemainder : 2 ≤ 2 ∧ crcEncode 0x13 [0x80] = (0xE, [0xE0]) := by decide +kernel

theorem witness_CodedSequenceIsDivisible : 2 ≤ 2 ∧ crcRemainder 0x13 [0x80, 0xE0] = 0 := by decide +kernel

theorem witness_CrcRemainderIsLinear :
    2 ≤ 0x18005 ∧ [0x41, 0x42, 0x07, 0x89].length = [0x01, 0x00, 0x00, 0x00].length
      ∧ crcRemainder 0x18005 [0x41, 0x42, 0x07, 0x89] = 0 ∧ crcRemainder 0x18005 [0x01, 0x00, 0x00, 0x00] = 0x8603 := by
  decide +kernel

/-- G = 3 at the last bit of the first byte and the first bit of the last byte of a valid sequence. -/
theorem witness_SingleBitFlipIsDetectedByCrc :
    0 < 1 ∧ Nat.testBit 3 0 = true ∧ Nat.testBit 3 1 = true ∧ 0 < 8 ∧ 7 < 8 ∧ 1 < [(0x41 : Byte), 0x42].length
      ∧ crcRemainder 3 [0x41, 0x42] = 0 ∧ crcRemainder 3 [0x40, 0x42] ≠ 0 ∧ crcRemainder 3 [0x41, 0xC2] ≠ 0 := by
  decide +kernel

theorem witness_SingleTermGeneratorKeepsTheLastBits : 1 ≤ 1 ∧ crcRemainder (2 ^ 1) [0x01] = 1 := by decide +kernel

theorem witness_ParEncWritesTheParity : 64 ≤ 64 ∧ framesParity ((ready .crc 0 [0x43] []).input 1) = 1 := by decide +kernel

theorem witness_ParValReportsTheParity :
    64 ≤ 64 ∧ framesParity ((ready .crc 0 [0x43] []).input 1) = 1 ∧ framesParity ((ready .crc 0 [0x41] []).input 1) = 0 := by
  decide +kernel

theorem witness_ParityIsThatOfTheBitCount : [(0x41 : Byte), 0x43].Perm [0x43, 0x41] := by decide

theorem witness_ParityDetectsExactlyOddErrors :
    [(0x41 : Byte), 0x42].length = [(0x01 : Byte), 0x00].length ∧ framesParity [0x41, 0x42] = 0
      ∧ ([(0x01 : Byte), 0x00].map popcount).sum % 2 = 1 ∧ ([(0x01 : Byte), 0x80].map popcount).sum % 2 = 0 := by
  decide +kernel

/-- Tags that are pairwise distinct. -/
def TagsDistinct (s : State) : Prop := s.tagStart ≠ s.tagStop ∧ s.tagStart ≠ s.tagEsc ∧ s.tagStop ≠ s.tagEsc

theorem reset_tagsDistinct : TagsDistinct State.reset := by unfold TagsDistinct; decide

theorem witness_StuffWritesTheEscapedBytes : 64 ≤ 64 ∧ TagsDistinct State.reset := ⟨le_rfl, reset_tagsDistinct⟩

theorem witness_BuildWritesTheWireFrame :
    64 ≤ 64 ∧ FrameConfigOk (ready .crc 2 [] []) ∧ FrameConfigOk (ready .parity 0 [] []) := by unfold FrameConfigOk; decide

theorem witness_OutputsFitTheBuffer :
    64 ≤ 64 ∧ (∃ t, exec (.stuff 64) (ready .crc 0 [] []) = .next t ∧ t.result = .ok)
      ∧ ∃ t, exec (.build 64) (ready .parity 0 [] []) = .next t ∧ t.result = .ok :=
  ⟨le_rfl, ⟨_, rfl, by decide +kernel⟩, ⟨_, rfl, by decide +kernel⟩⟩

/-- Distinct tags, and a wire body with a byte as it is, an escaped tag and an escaped byte that is no tag. -/
theorem witness_StuffedBodyIsRecoveredExactly :
    TagsDistinct (ready .crc 0 [] []) ∧ ∀ p ∈ [Piece.plain 0x41, .escaped 0x7D, .escaped 0x42], (ready .crc 0 [] []).IsBody p :=
  ⟨reset_tagsDistinct, by simp [State.IsBody, ready, State.reset]⟩

/-- Room for one more byte after one byte, and no room in a full queue. -/
theorem witness_PushAppendsOrDropsWithOverflow :
    [(0x41 : Byte)].length < Config.rxqDepth ∧ ¬ fullQueue.length < Config.rxqDepth := by
  have := rxqDepth_bounds
  have := length_fullQueue
  simp only [List.length_singleton]
  omega

/-- A full queue, under each scheme; and a queue for each outcome of a call. -/
theorem witness_DecodePerformsOneDecoderCall :
    (FrameConfigOk (ready .crc 2 [] fullQueue) ∧ FrameConfigOk (ready .parity 0 [] fullQueue)
      ∧ fullQueue.length ≤ Config.rxqDepth)
    ∧ (ready .parity 0 [] []).decodeStep [0x7B] = (.noFrame, 0)
    ∧ (ready .parity 0 [] []).decodeStep [0x7B, 0x7D] = (.emptyFrame, 2)
    ∧ (ready .crc 0x18005 [] []).decodeStep [0x7B, 0x41, 0x7D] = (.corruptedDelimiter, 3)
    ∧ (ready .parity 0 [] []).decodeStep [0x7B, 0x41, 0x01, 0x7D] = (.integrityCheckFailed 1, 4)
    ∧ (ready .parity 0 [] []).decodeStep [0x7B, 0x41, 0x00, 0x7D] = (.frame [0x41] 0, 4) :=
  ⟨⟨by unfold FrameConfigOk; decide, by unfold FrameConfigOk; decide, length_fullQueue.le⟩, by decide +kernel⟩

/-- Bodies at the boundaries: empty, one byte short of the code, exactly the code, valid and invalid, and an escaped byte
that is no tag. -/
theorem witness_DecoderJudgesTheStagedBody :
    TagsDistinct (ready .crc 0x18005 [] []) ∧ (ready .crc 0x18005 [] []).codeLen = 2
      ∧ [(0x41 : Byte)].length < (ready .crc 0x18005 [] []).codeLen
      ∧ (ready .crc 0x18005 [] []).schemeValidate [0x41, 0x42] ≠ 0
      ∧ (ready .crc 0x18005 [] []).schemeValidate [0x00, 0x00] = 0
      ∧ ∀ p ∈ [Piece.escaped 0x41, .plain 0x42], (ready .crc 0x18005 [] []).IsBody p :=
  ⟨reset_tagsDistinct, by decide +kernel, by decide +kernel, by decide +kernel, by decide +kernel,
    by simp [State.IsBody, ready, State.reset]⟩

theorem witness_GarbageIsSkippedWithItsEscapes :
    (∀ c ∈ [(0x11 : Byte), 0x7D], c ≠ State.reset.tagStart ∧ c ≠ State.reset.tagEsc)
      ∧ State.reset.tagEsc ≠ State.reset.tagStart := by decide

theorem witness_SpuriousStartRestartsTheCandidate :
    TagsDistinct State.reset ∧ (∀ p ∈ [Piece.plain 0x01, .escaped 0x02], State.reset.IsBody p)
      ∧ (ready .parity 0 [] []).decodeStep [0x7B, 0x01, 0x5C, 0x02, 0x7B, 0x41, 0x42, 0x00, 0x7D] = (.frame [0x41, 0x42] 0, 9) :=
  ⟨reset_tagsDistinct, by simp [State.IsBody, State.reset], by decide +kernel⟩

/-- A queue for each alternative: all removed, a START that stays, a trailing ESC that stays, an open candidate with a
trailing ESC in its body, one behind a candidate cut short, and a closed frame; and distinct tags and a body. -/
theorem witness_RemovalEndsAfterStopOrBeforeTheCandidate :
    State.reset.decodeStep [0x11] = (.noFrame, 1) ∧ State.reset.decodeStep [0x11, 0x7B, 0x41] = (.noFrame, 1)
      ∧ State.reset.decodeStep [0x11, 0x5C] = (.noFrame, 1) ∧ State.reset.decodeStep [0x11, 0x7B, 0x41, 0x5C] = (.noFrame, 1)
      ∧ State.reset.decodeStep [0x7B, 0x41, 0x7B] = (.noFrame, 2) ∧ State.reset.decodeStep [0x7B, 0x7D] = (.emptyFrame, 2)
      ∧ TagsDistinct State.reset ∧ (∀ p ∈ [Piece.plain 0x41, .escaped 0x7D], State.reset.IsBody p) :=
  ⟨by decide +kernel, by decide +kernel, by decide +kernel, by decide +kernel, by decide +kernel, by decide +kernel,
    reset_tagsDistinct, by simp [State.IsBody, State.reset]⟩

/-- Garbage, a candidate cut short by a START, and a frame whose wire body escapes a byte that is no tag. -/
theorem witness_DeliveredPayloadIsValidated :
    ((ready .parity 0 [] []).tagStart ≠ (ready .parity 0 [] []).tagStop
      ∧ (ready .parity 0 [] []).tagStart ≠ (ready .parity 0 [] []).tagEsc
      ∧ (ready .parity 0 [] []).tagStop ≠ (ready .parity 0 [] []).tagEsc)
    ∧ (ready .parity 0 [] []).decodeStep [0x30, 0x7B, 0x42, 0x7B, 0x5C, 0x41, 0x00, 0x7D, 0x31] = (.frame [0x41] 0, 8) :=
  ⟨by decide, by decide +kernel⟩

/-- Two states that differ in REM, OLEN, draws and IBUF but not in what DECODE reads. -/
theorem witness_DecodeDependsOnQueueAndConfigurationAlone :
    (SameConfig (ready .parity 0 [] [0x7B, 0x41, 0x00, 0x7D])
        { ready .parity 0 [0x55] [0x7B, 0x41, 0x00, 0x7D] with rem := 9, olen := 3, draws := 8 }
      ∧ FrameConfigOk (ready .parity 0 [] [0x7B, 0x41, 0x00, 0x7D]))
      ∧ ∃ t, exec .decode (ready .parity 0 [] [0x7B, 0x41, 0x00, 0x7D]) = .next t ∧ t.result = .frame :=
  ⟨⟨⟨rfl, rfl, rfl, rfl, rfl⟩, by unfold FrameConfigOk; decide⟩, _, rfl, by decide +kernel⟩

/-- A stream as long as the queue is deep. -/
theorem witness_FeedingByteByByteDeliversTheSameFrames :
    FrameConfigOk (ready .crc 2 [] []) ∧ (ready .crc 2 [] []).rxq = [] ∧ fullQueue.length ≤ Config.rxqDepth :=
  ⟨by unfold FrameConfigOk; decide, rfl, length_fullQueue.le⟩

theorem witness_BuildThenDecodeReturnsThePayload :
    64 ≤ 64 ∧ FrameConfigOk (ready .crc 2 [] []) ∧ FrameConfigOk (ready .parity 0 [] [])
      ∧ (ready .crc 2 [] []).rxq = [] := ⟨le_rfl, by unfold FrameConfigOk; decide, by unfold FrameConfigOk; decide, rfl⟩

/-- A full queue of one START and zeros, and one whose last byte is an ESC in the body. -/
theorem witness_FullQueueWithAnOpenCandidateStalls :
    (FrameConfigOk (ready .parity 0 [] fullQueue)
      ∧ (∀ p ∈ List.replicate (Config.rxqDepth - 1) (Piece.plain 0), State.reset.IsBody p)
      ∧ fullQueue = (0x7B : Byte) :: State.reset.wirePieces (List.replicate (Config.rxqDepth - 1) (.plain 0))
      ∧ fullQueue.length = Config.rxqDepth)
    ∧ (∀ p ∈ List.replicate (Config.rxqDepth - 2) (Piece.plain 0), State.reset.IsBody p)
      ∧ ((0x7B : Byte) :: State.reset.wirePieces (List.replicate (Config.rxqDepth - 2) (.plain 0)) ++ [0x5C]).length
        = Config.rxqDepth := by
  have := rxqDepth_bounds
  have body : ∀ n, ∀ p ∈ List.replicate n (Piece.plain 0), State.reset.IsBody p := by
    intro n p hp
    rw [List.eq_of_mem_replicate hp]
    unfold State.IsBody
    decide
  refine ⟨⟨by unfold FrameConfigOk; decide, body _, by rw [wirePieces_zeros]; rfl, length_fullQueue⟩, body _, ?_⟩
  rw [wirePieces_zeros]
  simp only [List.cons_append, List.length_cons, List.length_append, List.length_replicate, List.length_nil]
  omega

/-- States in the invariant with each alternative of the composed registers. -/
theorem witness_RegistersReadTheirFields :
    State.Inv (ready .crc 1 [0x41] []) ∧ State.Inv { ready .parity 0x1FFFFFFFF [0x41] fullQueue with
        rxOvf := true, tagStop := 0x7B, result := .cmdError, errcode := .badTags, olen := 256 } := by
  have := rxqDepth_bounds
  refine ⟨⟨by decide, by decide, by decide, by decide, by decide, ?_, ?_, by decide⟩,
    ⟨by decide, by decide, by decide, by decide, by decide, length_fullQueue.le, ?_, by decide⟩⟩
  · show 0 ≤ Config.rxqDepth
    omega
  · show 0 ≤ Config.rxqDepth
    omega
  · show 0 ≤ Config.rxqDepth
    omega

theorem witness_ConfigurationWritesSetTheirFields :
    (0x100 : Word).toNat / 2 ^ 8 % 2 = 1 ∧ (0xFFFFFEFF : Word).toNat / 2 ^ 8 % 2 ≠ 1 := by decide

theorem witness_GeneratorReadsBackAsWritten :
    ∃ t u, step { State.reset with inputs := [.hostWrite 0x00C (.w32 0x04C11DB7), .hostWrite 0x010 (.w32 0xFFFFFFFF)] } = .next t
      ∧ step t = .next u ∧ u.G = 0x104C11DB7 := ⟨_, _, rfl, rfl, by decide +kernel⟩

/-- The first word, the last word and the last byte of IBUF, and the last byte of OBUF. -/
theorem witness_BufferAccessesAreLittleEndian :
    (0x100 ≤ (0x100 : Offset).toNat ∧ (0x100 : Offset).toNat < 0x140 ∧ (0x100 : Offset).toNat % (BusValue.w32 0).size.bytes = 0)
      ∧ (0x13C : Offset).toNat < 0x140 ∧ (0x13C : Offset).toNat % (BusValue.w32 0).size.bytes = 0
      ∧ (0x13F : Offset).toNat < 0x140 ∧ (0x13F : Offset).toNat % (BusValue.w8 0).size.bytes = 0
      ∧ 0x200 ≤ (0x2FF : Offset).toNat ∧ (0x2FF : Offset).toNat < 0x300 ∧ (0x2FE : Offset).toNat % 2 = 0
      ∧ (0x2FC : Offset).toNat % 4 = 0 := by decide

/-- The ends of the reserved ranges, a misaligned IBUF offset, a half-word register access, and a read-only register. -/
theorem witness_IllegalAccessesAreIgnored :
    regionOf 0x030 = .reserved ∧ regionOf 0x0FF = .reserved ∧ regionOf 0x140 = .reserved ∧ regionOf 0x1FF = .reserved
      ∧ regionOf 0x300 = .reserved ∧ regionOf 0xFFF = .reserved ∧ regionOf 0x200 = .obuf ∧ regionOf 0x2FF = .obuf
      ∧ regionOf 0x101 = .ibuf ∧ (0x101 : Offset).toNat % (BusValue.w16 0).size.bytes ≠ 0
      ∧ regionOf 0x02F = .registers ∧ (0x02F : Offset).toNat % 4 ≠ 0 ∧ (BusValue.w16 0).size ≠ .word
      ∧ (0x02C : Offset) ∈ [(0x018 : Offset), 0x01C, 0x020, 0x024, 0x02C] := by decide

end Sys2Proof.Tests
end

