-- ==== Sys2Proof/Proofs/OutputBounds.lean ====
section
/-! PROOF. The lengths of the stuffed sequence, of the active scheme's code and of the wire frame, and from them the
output bounds of STUFF and BUILD (42_stuff_build.md R162, R163, R164, R168). -/

namespace Sys2Proof.Machine

/-! ### The lengths of what STUFF and BUILD write -/

/-- One ESC more for each tag value (42_stuff_build.md R162). -/
theorem length_stuffed (s : State) (bs : List Byte) : (s.stuffed bs).length = bs.length + bs.countP s.isTag := by
  induction bs with
  | nil => rfl
  | cons b bs ih =>
    by_cases h : s.isTag b = true
    · rw [State.stuffed, if_pos h, List.countP_cons_of_pos h]
      simp only [List.length_cons, ih]
      omega
    · rw [State.stuffed, if_neg h, List.countP_cons_of_neg h]
      simp only [List.length_cons, ih]
      omega

theorem length_stuffed_le (s : State) (bs : List Byte) : (s.stuffed bs).length ≤ 2 * bs.length := by
  have := length_stuffed s bs
  have := List.countP_le_length (p := s.isTag) (l := bs)
  omega

/-- The code of the active scheme has CFGINFO.CODE_LEN bytes (42_stuff_build.md R163). -/
theorem length_schemeEncode (s : State) (P : List Byte) : (s.schemeEncode P).2.length = s.codeLen := by
  unfold State.schemeEncode State.codeLen
  cases s.scheme with
  | crc => exact length_codeBytes _ _
  | parity => rfl

/-- G has at most 33 bits, so no code is longer than 4 bytes. -/
theorem codeLen_le (s : State) : s.codeLen ≤ 4 := by
  unfold State.codeLen
  cases s.scheme with
  | crc => exact crcLen_le s.gen.isLt
  | parity => simp only; omega

/-- START and STOP, and at most two wire bytes for each byte of payload and code (42_stuff_build.md R164). -/
theorem length_wireFrame_le (s : State) (P : List Byte) : (s.wireFrame P).length ≤ 2 + 2 * (P.length + 4) := by
  have hbody := length_stuffed_le s (P ++ (s.schemeEncode P).2)
  have hcode := codeLen_le s
  simp only [List.length_append, length_schemeEncode] at hbody
  simp only [State.wireFrame, List.length_append, List.length_singleton]
  omega

/-! ### A command that reports OK has run -/

/-- A rejection reports CMD_ERROR, so RESULT = OK is left by the effect alone (60_exceptions.md R253). -/
theorem command_eq_of_result_ok {s : State} {i : Instr} {f : State → State} (h : (s.command i f).result = .ok) :
    s.command i f = f s := by
  rcases command_cases s i f with ⟨-, hrun⟩ | ⟨e, -, -, hrej⟩
  · exact hrun
  · rw [hrej] at h
    cases h

theorem stuff_olen_of_ok {s t : State} {n : Nat} (h : exec (.stuff n) s = .next t) (hok : t.result = .ok) :
    t.olen = (s.stuffed (s.input n)).length := by
  cases h
  rw [command_eq_of_result_ok hok, accept_olen, setOutput_olen]

theorem build_olen_of_ok {s t : State} {n : Nat} (h : exec (.build n) s = .next t) (hok : t.result = .ok) :
    t.olen = (s.wireFrame (s.input n)).length := by
  cases h
  rw [command_eq_of_result_ok hok, accept_olen, setRem_olen, setOutput_olen]

/-! ### The output bounds -/

/-- Settles O41: each OLEN is a length bounded above, with a payload of at most 64 bytes. -/
theorem outputsFitTheBuffer : Obligations.OutputsFitTheBuffer := by
  intro s t n hn
  have hin := length_input s n
  constructor
  · intro h hok
    have hstuff := length_stuffed_le s (s.input n)
    rw [stuff_olen_of_ok h hok]
    omega
  · intro h hok
    have hframe := length_wireFrame_le s (s.input n)
    rw [build_olen_of_ok h hok]
    omega

end Sys2Proof.Machine
end

