-- ==== Sys2Proof/Proofs/Transitions.lean ====
section
/-! PROOF. What one step can do, as one inductive relation on states: the effects a command can have, and the agent steps
each kind of effect comes from. The proofs about every step are case analyses of this relation. -/

namespace Sys2Proof.Machine

/-! ### Commands -/

/-- The effects a word written to CMD can have. The output of the coder commands fits OBUF, and only a rejection reports
CMD_ERROR. -/
inductive CommandEffect (s : State) : State → Prop where
  /-- The word does not decode or the command check fails (60_exceptions.md R253). -/
  | rejected (e : ErrCode) (he : e ≠ .none) : CommandEffect s (s.reject e)
  /-- NOP (44_control.md R222). -/
  | nop : CommandEffect s (s.accept .ok)
  /-- The coder commands, STUFF and BUILD: output, perhaps REM, and RESULT. -/
  | coded (out : List Byte) (r : Option Nat) (res : Result) (hout : out.length ≤ 256)
      (hres : res ≠ .cmdError) : CommandEffect s (((s.setOutput out).setRem? r).accept res)
  /-- DECODE (43_decoder.md R189). -/
  | decoded : CommandEffect s (s.settle (s.decodeStep s.rxq).1 (s.decodeStep s.rxq).2)
  /-- RXFLUSH (43_decoder.md R194). -/
  | flushed : CommandEffect s ((s.consume s.rxq.length).accept .ok)

theorem lenTooLong_of_len? {i : Instr} {n : Nat} (hn : i.len? = some n) : lenTooLong i = decide (64 < n) := by
  cases i <;> cases hn <;> rfl

/-- Check 3 of 60_exceptions.md R254: an accepted command's LEN is at most IBUF_SIZE. -/
theorem len_le_of_commandCheck {s : State} {i : Instr} {n : Nat} (hn : i.len? = some n)
    (h : s.commandCheck i = .none) : n ≤ 64 := by
  obtain ⟨hlen, -, -⟩ := (commandCheck_none_iff s i).mp h
  simpa [lenTooLong_of_len? hn] using hlen

theorem validation_ne_cmdError (r : Nat) : validation r ≠ .cmdError := by
  unfold validation
  split <;> decide

theorem length_crcEncode_le (s : State) (P : List Byte) : (crcEncode s.G P).2.length ≤ 4 := by
  simpa [crcEncode] using crcLen_le (G_lt s)

/-- A checked command has its effect or is rejected, so only the effect of an accepted one is to be shown. -/
theorem commandEffect_command {s : State} {i : Instr} {f : State → State}
    (h : s.commandCheck i = .none → CommandEffect s (f s)) : CommandEffect s (s.command i f) := by
  rcases command_cases s i f with ⟨hc, hrun⟩ | ⟨e, he, -, hrej⟩
  · exact hrun ▸ h hc
  · exact hrej ▸ .rejected e he

theorem commandEffect_exec {i : Instr} {s t : State} (hi : i.format = .cmd) (h : exec i s = .next t) :
    CommandEffect s t := by
  cases i with
  | nop => cases h; exact .nop
  | crcEnc n =>
    cases h
    have hout := length_crcEncode_le s (s.input n)
    exact commandEffect_command fun _ => .coded _ (some _) _ (by omega) (by decide)
  | crcVal n =>
    cases h
    exact commandEffect_command fun _ => .coded [] (some _) _ (by decide) (validation_ne_cmdError _)
  | parEnc n =>
    cases h
    exact commandEffect_command fun _ => .coded (parityCode _) (some _) _ (by simp [parityCode]) (by decide)
  | parVal n =>
    cases h
    exact commandEffect_command fun _ => .coded [] (some _) _ (by decide) (validation_ne_cmdError _)
  | stuff n =>
    cases h
    refine commandEffect_command fun hc => .coded _ none _ ?_ (by decide)
    have hn : n ≤ 64 := len_le_of_commandCheck rfl hc
    have hout := length_stuffed_le s (s.input n)
    rw [length_input] at hout
    omega
  | build n =>
    cases h
    refine commandEffect_command fun hc => .coded _ (some _) _ ?_ (by decide)
    have hn : n ≤ 64 := len_le_of_commandCheck rfl hc
    have hout := length_wireFrame_le s (s.input n)
    rw [length_input] at hout
    omega
  | decode => cases h; exact commandEffect_command fun _ => .decoded
  | rxflush => cases h; exact .flushed
  | rxpush b => cases hi
  | srst => cases hi

/-! ### Plain writes -/

theorem offset_of_regAt {off : Offset} {r : Reg} (h : regAt off = some r) : r.offset = off := by
  simpa using List.find?_some h

/-- A plain write reaches one register, sets bytes inside IBUF, or is ignored (20_memory.md R62 to R67). -/
theorem busWrite_cases (s : State) (off : Offset) (v : BusValue) :
    (∃ r w, off = r.offset ∧ v = .w32 w ∧ s.busWrite off v = s.writeReg w r)
      ∨ (Config.ibufBase ≤ off.toNat ∧ off.toNat + v.size.bytes ≤ Config.ibufBase + Config.ibufSize
        ∧ s.busWrite off v = { s with ibuf := s.ibuf.writeBytes off.toNat v.toBytes })
      ∨ s.busWrite off v = s := by
  unfold State.busWrite
  cases hreg : regionOf off with
  | registers =>
    cases v with
    | w32 w =>
      cases hr : regAt off with
      | some r => exact .inl ⟨r, w, (offset_of_regAt hr).symm, rfl, by simp [State.writeRegValue, hr]⟩
      | none => exact .inr (.inr (by simp [State.writeRegValue, hr]))
    | w16 x => exact .inr (.inr rfl)
    | w8 x => exact .inr (.inr rfl)
  | ibuf =>
    by_cases ha : aligned off v.size = true
    · obtain ⟨hlo, hhi⟩ : 0x100 ≤ off.toNat ∧ off.toNat < 0x140 := by
        unfold regionOf at hreg
        split_ifs at hreg with _ h
        exact h
      have hmod : off.toNat % v.size.bytes = 0 := by simpa [aligned] using ha
      refine .inr (.inl ⟨hlo, ?_, by simp [ha]⟩)
      simp only [Config.ibufBase, Config.ibufSize]
      cases v <;> simp only [BusValue.size, BusSize.bytes] at hmod ⊢ <;> omega
    · exact .inr (.inr (by simp [ha]))
  | obuf => exact .inr (.inr rfl)
  | reserved => exact .inr (.inr rfl)

/-! ### Steps -/

/-- A push: the Line agent's, or a word written to RXDATA (43_decoder.md R181). -/
def Input.IsPush (x : Input) : Prop := (∃ b, x = .linePush b) ∨ ∃ w, x = .hostWrite 0x028 (.w32 w)

/-- A reset: the reset input, or a word written to CTRL with SRST set (70_reset_and_hazards.md R280). -/
def Input.IsReset (x : Input) : Prop := x = .hwReset ∨ ∃ w, x = .hostWrite 0x000 (.w32 w) ∧ w.getLsbD 1 = true

/-- What an agent step can do to the state it is taken from. -/
inductive Transition (s : State) : Input → State → Prop where
  | read (off : Offset) (n : BusSize) : Transition s (.hostRead off n) (s.busRead off n)
  | push (x : Input) (hx : x.IsPush) (b : Byte) : Transition s x (s.push b)
  | reset (x : Input) (hx : x.IsReset) : Transition s x s.resetAll
  | command (w : Word) (t : State) (ht : CommandEffect s t) : Transition s (.hostWrite 0x008 (.w32 w)) t
  | writeReg (w : Word) (r : Reg) : Transition s (.hostWrite r.offset (.w32 w)) (s.writeReg w r)
  | writeIbuf (off : Offset) (v : BusValue) (hlo : Config.ibufBase ≤ off.toNat)
      (hhi : off.toNat + v.size.bytes ≤ Config.ibufBase + Config.ibufSize) :
      Transition s (.hostWrite off v) { s with ibuf := s.ibuf.writeBytes off.toNat v.toBytes }
  | ignored (off : Offset) (v : BusValue) : Transition s (.hostWrite off v) s

theorem transition_busWrite (s : State) (off : Offset) (v : BusValue) :
    Transition s (.hostWrite off v) (s.busWrite off v) := by
  rcases busWrite_cases s off v with ⟨r, w, rfl, rfl, h⟩ | ⟨hlo, hhi, h⟩ | h <;> rw [h]
  · exact .writeReg w r
  · exact .writeIbuf off v hlo hhi
  · exact .ignored off v

/-- A word that decodes to an operation acts by the format of the register it is written to. -/
theorem transition_operation {f : Format} {w : Word} {i : Instr} {s t : State} (hd : decode f w = .instr i)
    (h : exec i s = .next t) : Transition s (.hostWrite (portOf f).offset (.w32 w)) t := by
  cases f with
  | cmd => exact .command w t (commandEffect_exec (decode_format hd) h)
  | rxdata =>
    cases hd
    cases h
    exact .push _ (.inr ⟨w, rfl⟩) _
  | ctrl =>
    simp only [decode] at hd
    split at hd
    · next hw =>
      cases hd
      cases h
      exact .reset _ (.inr ⟨w, rfl, hw⟩)
    · cases hd

/-- Only a word written to CMD is rejected by the decoder (30_encoding.md R94). -/
theorem decode_reject_format {f : Format} {w : Word} {e : DecodeReject} (h : decode f w = .reject e) : f = .cmd := by
  cases f with
  | cmd => rfl
  | rxdata => cases h
  | ctrl =>
    simp only [decode] at h
    split at h <;> cases h

/-- Every step either finds nothing pending and changes nothing, or takes the first pending agent step. -/
theorem step_transition {s t : State} (h : step s = .next t) :
    (s.inputs = [] ∧ t = s) ∨ ∃ x rest, s.inputs = x :: rest ∧ Transition { s with inputs := rest } x t := by
  rcases step_cases h with idle | ⟨x, rest, hin, hx⟩
  · exact .inl idle
  · refine .inr ⟨x, rest, hin, ?_⟩
    rcases hx with ⟨off, n, rfl, rfl⟩ | ⟨b, rfl, rfl⟩ | ⟨rfl, rfl⟩ |
      ⟨off, v, rfl, ⟨i, hd, he⟩ | ⟨e, hd, rfl⟩ | ⟨-, rfl⟩⟩
    · exact .read off n
    · exact .push _ (.inl ⟨b, rfl⟩) b
    · exact .reset _ (.inl rfl)
    · obtain ⟨f, w, rfl, rfl, hf⟩ := decodeWrite_word (by rw [hd]; simp)
      exact transition_operation (hf ▸ hd) he
    · obtain ⟨f, w, rfl, rfl, hf⟩ := decodeWrite_word (by rw [hd]; simp)
      obtain rfl := decode_reject_format (hf ▸ hd)
      exact .command w _ (.rejected _ (rejectCode_ne_none e))
    · exact transition_busWrite _ off v

theorem transition_of_inputs {s t : State} {x : Input} {rest : List Input} (hin : s.inputs = x :: rest)
    (h : step s = .next t) : Transition { s with inputs := rest } x t := by
  rcases step_transition h with ⟨hnil, -⟩ | ⟨y, rest', hin', ht⟩
  · simp [hin] at hnil
  · obtain ⟨rfl, rfl⟩ : x = y ∧ rest = rest' := by simpa [hin] using hin'
    exact ht

/-! ### What a plain register write leaves unchanged -/

/-- A register write changes only the configuration and RX_OVF (44_control.md R223, R225 to R228). -/
theorem writeReg_eq (s : State) (w : Word) (r : Reg) :
    s.writeReg w r = { s with
      scheme := (s.writeReg w r).scheme, gen := (s.writeReg w r).gen, tagStart := (s.writeReg w r).tagStart
      tagStop := (s.writeReg w r).tagStop, tagEsc := (s.writeReg w r).tagEsc, rxOvf := (s.writeReg w r).rxOvf } := by
  cases r
  case status =>
    simp only [State.writeReg]
    split <;> rfl
  all_goals rfl

@[simp] theorem writeReg_result (s : State) (w : Word) (r : Reg) : (s.writeReg w r).result = s.result := by
  rw [writeReg_eq]
@[simp] theorem writeReg_errcode (s : State) (w : Word) (r : Reg) : (s.writeReg w r).errcode = s.errcode := by
  rw [writeReg_eq]
@[simp] theorem writeReg_rxq (s : State) (w : Word) (r : Reg) : (s.writeReg w r).rxq = s.rxq := by
  rw [writeReg_eq]

/-- Of the registers only STATUS acts on RX_OVF: bit 8 of the word clears it (44_control.md R227). -/
theorem writeReg_rxOvf (s : State) (w : Word) (r : Reg) :
    (s.writeReg w r).rxOvf = if r = .status ∧ w.getLsbD 8 = true then false else s.rxOvf := by
  cases r
  case status =>
    simp only [State.writeReg, true_and]
    split <;> rfl
  all_goals rfl

end Sys2Proof.Machine
end

