-- ==== Sys2Proof/Proofs/Invariant.lean ====
section
/-! PROOF. The invariant of Safety.lean is kept by each state operation, hence by every transition and every step. -/

namespace Sys2Proof.Machine

/-! ### Each state operation keeps the invariant -/

theorem inv_inputs {s : State} (hs : s.Inv) (rest : List Input) : State.Inv { s with inputs := rest } := { hs with }

theorem inv_busRead {s : State} (hs : s.Inv) (off : Offset) (n : BusSize) : (s.busRead off n).Inv := { hs with }

theorem inv_accept {s : State} (hs : s.Inv) {r : Result} (hr : r ≠ .cmdError) : (s.accept r).Inv :=
  { hs with errcodeOnError := by simp [hr] }

theorem inv_reject {s : State} (hs : s.Inv) {e : ErrCode} (he : e ≠ .none) : (s.reject e).Inv :=
  { hs with errcodeOnError := by simp [he] }

/-- The new OBUF lists exactly the output, so it lies inside the OLEN bytes at its base. -/
theorem inv_setOutput {s : State} (hs : s.Inv) {out : List Byte} (hout : out.length ≤ 256) : (s.setOutput out).Inv :=
  { hs with
    obufWf := wf_fresh _ _ _
    obufWithin := within_fresh _ _ _ _ le_rfl
    olenBound := hout }

theorem inv_setRem? {s : State} (hs : s.Inv) (r : Option Nat) : (s.setRem? r).Inv := by
  cases r with
  | none => exact hs
  | some r => exact { hs with }

theorem inv_consume {s : State} (hs : s.Inv) {k : Nat} (hk : k ≤ s.rxq.length) : (s.consume k).Inv :=
  { hs with
    rxqBound := by
      have := hs.rxqBound
      simp only [consume_rxq, List.length_drop]
      omega
    consumedBound := hk.trans hs.rxqBound }

theorem inv_push {s : State} (hs : s.Inv) (b : Byte) : (s.push b).Inv := by
  by_cases hroom : s.rxq.length < Config.rxqDepth
  · rw [push_of_lt s b hroom]
    exact { hs with rxqBound := by simpa using hroom }
  · rw [push_of_full s b hroom]
    exact { hs with }

theorem inv_resetAll (s : State) : s.resetAll.Inv where
  ibufWf := wf_fresh _ _ _
  ibufWithin := within_fresh _ _ _ _ (by simp)
  obufWf := wf_fresh _ _ _
  obufWithin := within_fresh _ _ _ _ le_rfl
  olenBound := Nat.zero_le _
  rxqBound := Nat.zero_le _
  consumedBound := Nat.zero_le _
  errcodeOnError := by simp

theorem inv_writeReg {s : State} (hs : s.Inv) (w : Word) (r : Reg) : (s.writeReg w r).Inv := by
  rw [writeReg_eq]
  exact { hs with }

theorem inv_writeIbuf {s : State} (hs : s.Inv) {a : Nat} {bs : List Byte} (hlo : Config.ibufBase ≤ a)
    (hhi : a + bs.length ≤ Config.ibufBase + Config.ibufSize) :
    State.Inv { s with ibuf := s.ibuf.writeBytes a bs } :=
  { hs with
    ibufWf := wf_writeBytes _ _ _ hs.ibufWf
    ibufWithin := within_writeBytes _ _ _ _ _ hs.ibufWithin ⟨hlo, hhi⟩ }

/-! ### DECODE -/

/-- Phase 2 stages at most one byte for each byte it scans. -/
theorem length_staged_le {s : State} {q : List Byte} : ∀ {st j k : Nat} {g staged : List Byte},
    s.accumulate st g j q = .closed k staged → staged.length ≤ g.length + q.length := by
  induction q using accumulate_induct s with
  | nil => intro st j k g staged h; simp [accumulate_nil] at h
  | escNil => intro st j k g staged h; simp [accumulate_esc_nil] at h
  | esc c q ih =>
    intro st j k g staged h
    have := ih (accumulate_esc s st g j c q ▸ h)
    simp only [List.length_append, List.length_cons, List.length_nil] at this ⊢
    omega
  | stop hne q =>
    intro st j k g staged h
    rw [accumulate_stop s st g j q hne] at h
    cases h
    omega
  | start hne hne' q ih =>
    intro st j k g staged h
    have := ih (accumulate_start s st g j q hne hne' ▸ h)
    simp only [List.length_cons, List.length_nil] at this ⊢
    omega
  | other b q hne hne' hne'' ih =>
    intro st j k g staged h
    have := ih (accumulate_other s st g j b q hne hne' hne'' ▸ h)
    simp only [List.length_append, List.length_cons, List.length_nil] at this ⊢
    omega

/-- The payload is a part of the staged body, and that was staged from the bytes after START. -/
theorem length_payload_decodeStep (s : State) (Q : List Byte) : (s.decodeStep Q).1.payload.length ≤ Q.length := by
  have hseek := seekStart_spec s Q
  unfold State.decodeStep
  cases hq : s.seekStart 0 Q with
  | exhausted k => simp [DecodeOutcome.payload]
  | found i q =>
    rw [hq] at hseek
    obtain ⟨-, hlen⟩ := hseek
    cases hacc : s.accumulate i [] (i + 1) q with
    | incomplete k => simp [hacc, DecodeOutcome.payload]
    | closed k staged =>
      simp only [hacc]
      have hstaged : staged.length ≤ q.length := by simpa using length_staged_le hacc
      have hpayload := length_payload_validateBody s staged
      omega

theorem decodeOutcome_result_ne_cmdError (o : DecodeOutcome) : o.result ≠ .cmdError := by
  cases o <;> simp [DecodeOutcome.result]

/-- The payload of a frame fits OBUF because the queue it comes from is no longer than 256 bytes. -/
theorem inv_settle {s : State} (hs : s.Inv) : (s.settle (s.decodeStep s.rxq).1 (s.decodeStep s.rxq).2).Inv := by
  have hpayload : (s.decodeStep s.rxq).1.payload.length ≤ 256 :=
    (length_payload_decodeStep s s.rxq).trans (hs.rxqBound.trans rxqDepth_bounds.2)
  have hconsumed := inv_consume hs (decodeStep_le s s.rxq)
  exact inv_accept (inv_setRem? (inv_setOutput hconsumed hpayload) _) (decodeOutcome_result_ne_cmdError _)

/-! ### Every step keeps the invariant -/

theorem commandEffect_inv {s t : State} (h : CommandEffect s t) (hs : s.Inv) : t.Inv := by
  cases h with
  | rejected e he => exact inv_reject hs he
  | nop => exact inv_accept hs (by decide)
  | coded out r res hout hres => exact inv_accept (inv_setRem? (inv_setOutput hs hout) r) hres
  | decoded => exact inv_settle hs
  | flushed => exact inv_accept (inv_consume hs le_rfl) (by decide)

theorem transition_inv {s t : State} {x : Input} (h : Transition s x t) (hs : s.Inv) : t.Inv := by
  cases h with
  | read off n => exact inv_busRead hs off n
  | push x hx b => exact inv_push hs b
  | reset x hx => exact inv_resetAll s
  | command w t ht => exact commandEffect_inv ht hs
  | writeReg w r => exact inv_writeReg hs w r
  | writeIbuf off v hlo hhi => exact inv_writeIbuf hs hlo (by rwa [length_toBytes])
  | ignored off v => exact hs

/-- Settles O12: an idle step changes nothing, and any other step is a transition. -/
theorem everyStepKeepsTheInvariant : Obligations.EveryStepKeepsTheInvariant := by
  intro s t hs h
  rcases step_transition h with ⟨-, rfl⟩ | ⟨x, rest, -, ht⟩
  · exact hs
  · exact transition_inv ht (inv_inputs hs rest)

end Sys2Proof.Machine
end

