-- ==== Sys2Proof/Proofs/StateChanges.lean ====
section
/-! PROOF. Which agent steps change RX_OVF, RESULT, ERRCODE and RXQ, and how (10_state.md R38, R40): each claim is a case
analysis of the transitions. -/

namespace Sys2Proof.Machine

/-! ### RX_OVF -/

/-- No command changes RX_OVF (44_control.md R221). -/
theorem commandEffect_rxOvf {s t : State} (h : CommandEffect s t) : t.rxOvf = s.rxOvf := by
  cases h <;> simp [State.settle]

/-- A push sets RX_OVF exactly when it is dropped (43_decoder.md R182). -/
theorem push_rxOvf (s : State) (b : Byte) :
    (s.push b).rxOvf = if s.rxq.length < Config.rxqDepth then s.rxOvf else true := by
  unfold State.push
  split <;> rfl

theorem rxOvf_set_by {s t : State} {x : Input} (h : Transition s x t) (hs : s.rxOvf = false) (ht : t.rxOvf = true) :
    Config.rxqDepth ≤ s.rxq.length ∧ x.IsPush := by
  cases h with
  | read off n => simp [hs] at ht
  | push x hx b =>
    rw [push_rxOvf] at ht
    split at ht
    · simp [hs] at ht
    · next hfull => exact ⟨not_lt.mp hfull, hx⟩
  | reset x hx => cases ht
  | command w t hcmd => simp [commandEffect_rxOvf hcmd, hs] at ht
  | writeReg w r => simp [writeReg_rxOvf, hs] at ht
  | writeIbuf off v hlo hhi => simp [hs] at ht
  | ignored off v => simp [hs] at ht

theorem rxOvf_cleared_by {s t : State} {x : Input} (h : Transition s x t) (hs : s.rxOvf = true)
    (ht : t.rxOvf = false) : x.IsReset ∨ ∃ w, x = .hostWrite 0x004 (.w32 w) ∧ w.getLsbD 8 = true := by
  cases h with
  | read off n => simp [hs] at ht
  | push x hx b => simp [push_rxOvf, hs] at ht
  | reset x hx => exact .inl hx
  | command w t hcmd => simp [commandEffect_rxOvf hcmd, hs] at ht
  | writeReg w r =>
    rw [writeReg_rxOvf] at ht
    split at ht
    · next hw =>
      obtain ⟨rfl, hbit⟩ := hw
      exact .inr ⟨w, rfl, hbit⟩
    · simp [hs] at ht
  | writeIbuf off v hlo hhi => simp [hs] at ht
  | ignored off v => simp [hs] at ht

/-- Settles O15: a push on a full queue alone sets the flag; a reset or STATUS bit 8 alone clears it. -/
theorem overflowFlagChangesOnlyAsStated : Obligations.OverflowFlagChangesOnlyAsStated := by
  intro s t x rest hin h
  have hset := rxOvf_set_by (transition_of_inputs hin h)
  have hcleared := rxOvf_cleared_by (transition_of_inputs hin h)
  refine ⟨hset, fun hs ht => ?_⟩
  rcases hcleared hs ht with (hreset | hsrst) | hstatus
  · exact .inl hreset
  · exact .inr (.inl hsrst)
  · exact .inr (.inr hstatus)

/-! ### RESULT and ERRCODE -/

/-- Only a word written to CMD and a reset touch RESULT and ERRCODE (10_state.md R40). -/
theorem result_errcode_kept {s t : State} {x : Input} (h : Transition s x t) :
    (∃ w, x = .hostWrite 0x008 (.w32 w)) ∨ x.IsReset ∨ (t.result = s.result ∧ t.errcode = s.errcode) := by
  cases h with
  | read off n => exact .inr (.inr ⟨rfl, rfl⟩)
  | push x hx b => exact .inr (.inr ⟨push_result s b, push_errcode s b⟩)
  | reset x hx => exact .inr (.inl hx)
  | command w t hcmd => exact .inl ⟨w, rfl⟩
  | writeReg w r => exact .inr (.inr ⟨writeReg_result s w r, writeReg_errcode s w r⟩)
  | writeIbuf off v hlo hhi => exact .inr (.inr ⟨rfl, rfl⟩)
  | ignored off v => exact .inr (.inr ⟨rfl, rfl⟩)

/-- Settles O16: every transition but a command and a reset keeps both fields. -/
theorem resultChangesOnlyByCommandOrReset : Obligations.ResultChangesOnlyByCommandOrReset := by
  intro s t x rest hin h hchange
  rcases result_errcode_kept (transition_of_inputs hin h) with hcmd | hreset | ⟨hresult, herrcode⟩
  · exact .inl hcmd
  · exact .inr hreset
  · rcases hchange with hne | hne
    · exact absurd hresult hne
    · exact absurd herrcode hne

/-! ### RXQ -/

theorem commandEffect_rxq {s t : State} (h : CommandEffect s t) : ∃ k, t.rxq = s.rxq.drop k := by
  cases h with
  | rejected e he => exact ⟨0, rfl⟩
  | nop => exact ⟨0, rfl⟩
  | coded out r res hout hres => exact ⟨0, by simp⟩
  | decoded => exact ⟨(s.decodeStep s.rxq).2, by simp [State.settle]⟩
  | flushed => exact ⟨s.rxq.length, rfl⟩

/-- A push appends its byte, or drops it when the queue is full (43_decoder.md R181, R182). -/
theorem push_rxq (s : State) (b : Byte) :
    (s.push b).rxq = if s.rxq.length < Config.rxqDepth then s.rxq ++ [b] else s.rxq := by
  unfold State.push
  split <;> rfl

theorem transition_rxq {s t : State} {x : Input} (h : Transition s x t) :
    (∃ b, t.rxq = s.rxq ++ [b]) ∨ ∃ k, t.rxq = s.rxq.drop k := by
  cases h with
  | read off n => exact .inr ⟨0, rfl⟩
  | push x hx b =>
    rw [push_rxq]
    split
    · exact .inl ⟨b, rfl⟩
    · exact .inr ⟨0, rfl⟩
  | reset x hx => exact .inr ⟨s.rxq.length, by simp⟩
  | command w t hcmd => exact .inr (commandEffect_rxq hcmd)
  | writeReg w r => exact .inr ⟨0, writeReg_rxq s w r⟩
  | writeIbuf off v hlo hhi => exact .inr ⟨0, rfl⟩
  | ignored off v => exact .inr ⟨0, rfl⟩

/-- Settles O17: an idle step keeps the queue, and every transition appends a byte or drops some at the front. -/
theorem queueChangesOnlyByAppendOrPrefixRemoval : Obligations.QueueChangesOnlyByAppendOrPrefixRemoval := by
  intro s t h
  rcases step_transition h with ⟨-, rfl⟩ | ⟨x, rest, -, ht⟩
  · exact .inr ⟨0, rfl⟩
  · exact transition_rxq (s := { s with inputs := rest }) ht

end Sys2Proof.Machine
end

