-- ==== Sys2Proof/Proofs/RegisterReads.lean ====
section
/-! PROOF. Where each register stands in the window and what number it reads as (10_state.md R22 to R35), and the two
generator writes as numbers (44_control.md R226). -/

namespace Sys2Proof.Machine

/-! ### The twelve offsets -/

/-- A 32-bit read at a register's offset returns that register (44_control.md R229). -/
theorem readValue_offset (s : State) (r : Reg) : s.readValue r.offset .word = .w32 (s.readReg r) := by
  have hregion : regionOf r.offset = .registers := by cases r <;> decide
  have hreg : regAt r.offset = some r := by cases r <;> decide
  simp [State.readValue, hregion, regAccess, hreg]

/-! ### Field values -/

theorem bit_decide (p : Prop) [Decidable p] : bit (decide p) = if p then 1 else 0 := by
  by_cases h : p <;> simp [bit, h]

theorem bit_le (b : Bool) : bit b ≤ 1 := by cases b <;> decide

theorem result_code_le (r : Result) : r.code ≤ 6 := by cases r <;> decide

theorem errCode_code_le (e : ErrCode) : e.code ≤ 5 := by cases e <;> decide

/-- The degree as CFGINFO.DEGREE reads it: 0 for G = 0 (10_state.md R28). -/
theorem degree_eq (G : Nat) : degree G = if G = 0 then 0 else Nat.log2 G := by
  unfold degree bitlen
  split <;> rfl

/-! ### Each composed register as a number: its fields do not overlap and fit 32 bits -/

theorem toNat_ofNat_word {n : Nat} (h : n < 2 ^ 32) : (BitVec.ofNat 32 n).toNat = n := by
  rw [BitVec.toNat_ofNat, Nat.mod_eq_of_lt h]

theorem ctrlWord_toNat (s : State) : s.ctrlWord.toNat = s.scheme.code := by
  unfold State.ctrlWord
  cases s.scheme <;> rfl

theorem statusWord_toNat (s : State) :
    s.statusWord.toNat = s.result.code + 16 * s.errcode.code + 256 * bit s.rxOvf + 512 * bit s.rxEmpty
      + 1024 * bit s.rxFull := by
  have hresult := result_code_le s.result
  have herrcode := errCode_code_le s.errcode
  have hovf := bit_le s.rxOvf
  have hempty := bit_le s.rxEmpty
  have hfull := bit_le s.rxFull
  rw [State.statusWord, toNat_ofNat_word (by omega)]
  omega

theorem cfgInfo_toNat (s : State) :
    s.cfgInfo.toNat = degree s.G + 256 * crcLen s.G + 65536 * bit s.genOk + 131072 * bit s.tagsOk
      + 16777216 * s.codeLen := by
  have hdegree := degree_le_32 (G_lt s)
  have hlen := crcLen_le (G_lt s)
  have hcode := codeLen_le s
  have hgen := bit_le s.genOk
  have htags := bit_le s.tagsOk
  rw [State.cfgInfo, toNat_ofNat_word (by omega)]
  omega

theorem tagsWord_toNat (s : State) :
    s.tagsWord.toNat = s.tagStart.toNat + 256 * s.tagStop.toNat + 65536 * s.tagEsc.toNat := by
  have hstart := s.tagStart.isLt
  have hstop := s.tagStop.isLt
  have hesc := s.tagEsc.isLt
  rw [State.tagsWord, toNat_ofNat_word (by omega)]
  omega

theorem genLoWord_toNat (s : State) : s.genLoWord.toNat = s.G % 2 ^ 32 := by
  simp [State.genLoWord, State.G, BitVec.extractLsb'_toNat]

theorem genHiWord_toNat (s : State) : s.genHiWord.toNat = s.G / 2 ^ 32 := by
  have hG : s.gen.toNat < 2 ^ 33 := s.gen.isLt
  have hbit : s.gen.getLsbD 32 = decide (s.gen.toNat / 2 ^ 32 = 1) := by
    rw [← BitVec.testBit_toNat, Nat.testBit_eq_decide_div_mod_eq, Nat.mod_eq_of_lt (by omega)]
  have hle := bit_le (s.gen.getLsbD 32)
  rw [State.genHiWord, toNat_ofNat_word (by omega), hbit, bit_decide, State.G]
  split <;> omega

/-- A count of at most 256 is not cut by its 16-bit field. -/
theorem count_toNat {n : Nat} (h : n ≤ 256) : (BitVec.ofNat 32 (n % 2 ^ 16)).toNat = n := by
  rw [toNat_ofNat_word (by omega), Nat.mod_eq_of_lt (by omega)]

/-! ### The fields as the statement writes them -/

theorem statusWord_fields (s : State) :
    s.statusWord.toNat = s.result.code + 16 * s.errcode.code + (if s.rxOvf then 256 else 0)
      + (if s.rxq = [] then 512 else 0) + (if s.rxq.length = Config.rxqDepth then 1024 else 0) := by
  simp only [statusWord_toNat, State.rxEmpty, State.rxFull, List.length_eq_zero_iff, bit, decide_eq_true_eq, mul_ite,
    mul_one, mul_zero]

theorem cfgInfo_fields (s : State) :
    s.cfgInfo.toNat = degree s.G + 256 * ((degree s.G + 7) / 8) + (if 2 ≤ s.G then 65536 else 0)
      + (if s.tagStart ≠ s.tagStop ∧ s.tagStart ≠ s.tagEsc ∧ s.tagStop ≠ s.tagEsc then 131072 else 0)
      + 16777216 * (if s.scheme = .crc then (degree s.G + 7) / 8 else 1) := by
  have hcode : s.codeLen = if s.scheme = .crc then (degree s.G + 7) / 8 else 1 := by
    unfold State.codeLen
    cases s.scheme <;> rfl
  simp only [cfgInfo_toNat, State.genOk, State.tagsOk, crcLen, hcode, bit_decide, mul_ite, mul_one, mul_zero]

/-- Settles O56: the twelve places by `readValue_offset`, each register's number by the lemma of its word; the
invariant keeps the three counts inside their fields. -/
theorem registersReadTheirFields : Obligations.RegistersReadTheirFields := by
  intro s
  constructor
  · intro p hp
    have hoff : p.1 = p.2.offset := by
      revert p
      decide
    rw [hoff, readValue_offset]
  · intro hs
    have hdepth := rxqDepth_bounds.2
    have hctrl := ctrlWord_toNat s
    have hstatus := statusWord_fields s
    have hcfg := cfgInfo_fields s
    rw [degree_eq] at hcfg
    exact ⟨hctrl, hstatus, genLoWord_toNat s, genHiWord_toNat s, hcfg, tagsWord_toNat s, rfl, count_toNat hs.olenBound,
      count_toNat (hs.rxqBound.trans hdepth), count_toNat (hs.consumedBound.trans hdepth), rfl, rfl⟩

/-! ### Writing the generator -/

theorem writeReg_genLo_G (s : State) (w : Word) :
    (s.writeReg w .genLo).G = s.G / 2 ^ 32 * 2 ^ 32 + w.toNat := by
  have hG : s.gen.toNat < 2 ^ 33 := s.gen.isLt
  simp only [State.writeReg, State.G, BitVec.toNat_append, BitVec.extractLsb'_toNat, Nat.shiftRight_eq_div_pow]
  rw [← Nat.shiftLeft_add_eq_or_of_lt w.isLt, Nat.shiftLeft_eq]
  omega

theorem writeReg_genHi_G (s : State) (w : Word) :
    (s.writeReg w .genHi).G = w.toNat % 2 * 2 ^ 32 + s.G % 2 ^ 32 := by
  simp only [State.writeReg, State.G, BitVec.toNat_append, BitVec.extractLsb'_toNat, Nat.shiftRight_zero]
  rw [← Nat.shiftLeft_add_eq_or_of_lt (Nat.mod_lt _ (by omega)), Nat.shiftLeft_eq]

/-- Settles O58: GEN_LO then GEN_HI set both parts of G, and the two registers read the parts of G. -/
theorem generatorReadsBackAsWritten : Obligations.GeneratorReadsBackAsWritten := by
  intro s t u lo hi rest hlo hhi
  obtain rfl := Host.Outcome.next.inj ((step_regWrite s _ .genLo lo rfl).symm.trans hlo)
  obtain rfl := Host.Outcome.next.inj ((step_regWrite (s.writeReg lo .genLo) rest .genHi hi rfl).symm.trans hhi)
  have hlt := lo.isLt
  set u := State.writeReg { s.writeReg lo .genLo with inputs := rest } hi .genHi
  have hG : u.G = hi.toNat % 2 * 2 ^ 32 + lo.toNat := by
    have hafterLo : (s.writeReg lo .genLo).G % 2 ^ 32 = lo.toNat := by
      rw [writeReg_genLo_G]
      omega
    rw [← hafterLo]
    exact writeReg_genHi_G _ hi
  refine ⟨hG, BitVec.eq_of_toNat_eq ?_, ?_⟩
  · calc u.genLoWord.toNat = u.G % 2 ^ 32 := genLoWord_toNat u
      _ = lo.toNat := by omega
  · calc u.genHiWord.toNat = u.G / 2 ^ 32 := genHiWord_toNat u
      _ = hi.toNat % 2 := by omega

end Sys2Proof.Machine
end

