-- ==== Sys2Proof/Proofs/AgentSteps.lean ====
section
/-! PROOF. What every agent step does with the list of pending steps, and what a Host read does with the block
(20_memory.md R68, R72). -/

namespace Sys2Proof.Machine

/-! ### The pending steps -/

/-- No command touches the agents' pending steps. -/
theorem commandEffect_inputs {s t : State} (h : CommandEffect s t) : t.inputs = s.inputs := by
  cases h with
  | rejected e he => rfl
  | nop => rfl
  | coded out r res hout hres => simp
  | decoded => simp [State.settle]
  | flushed => rfl

theorem writeReg_inputs (s : State) (w : Word) (r : Reg) : (s.writeReg w r).inputs = s.inputs := by
  rw [writeReg_eq]

/-- What a taken step does to the block never reaches the steps behind it. -/
theorem transition_inputs {s t : State} {x : Input} (h : Transition s x t) : t.inputs = s.inputs := by
  cases h with
  | read off n => rfl
  | push x hx b => exact push_inputs s b
  | reset x hx => rfl
  | command w t hcmd => exact commandEffect_inputs hcmd
  | writeReg w r => exact writeReg_inputs s w r
  | writeIbuf off v hlo hhi => rfl
  | ignored off v => rfl

/-- Settles O11: an idle step has no step to take, and every other one leaves what stands behind the first. -/
theorem stepsTakeTheInputsInOrder : Obligations.StepsTakeTheInputsInOrder := by
  intro s t h
  rcases step_transition h with ⟨hnil, rfl⟩ | ⟨x, rest, hin, ht⟩
  · simp [hnil]
  · rw [transition_inputs ht, hin, List.tail_cons]

/-! ### Host reads -/

theorem step_hostRead (s : State) (rest : List Input) (off : Offset) (n : BusSize) :
    step { s with inputs := .hostRead off n :: rest } = .next (State.busRead { s with inputs := rest } off n) := rfl

/-- The value a read returns is a function of the block alone, not of the steps to come. -/
theorem readValue_inputs (s : State) (rest : List Input) (off : Offset) (n : BusSize) :
    State.readValue { s with inputs := rest } off n = s.readValue off n := rfl

/-- Settles O55: a Host read is one `busRead`, which writes `readData` alone. -/
theorem readsChangeNoStateOfTheBlock : Obligations.ReadsChangeNoStateOfTheBlock := by
  intro s off n rest
  rw [step_hostRead, State.busRead, readValue_inputs]

end Sys2Proof.Machine
end

