-- ==== Sys2Proof/Proofs/BufferAccesses.lean ====
section
/-! PROOF. Aligned accesses of IBUF and OBUF byte by byte: where each byte of a written value lands, what a write leaves
unchanged, and the bytes a read composes (20_memory.md R64, R65). -/

namespace Sys2Proof.Machine

/-! ### The window map -/

theorem regionOf_ibuf_iff (off : Offset) : regionOf off = .ibuf ↔ 0x100 ≤ off.toNat ∧ off.toNat < 0x140 := by
  unfold regionOf
  split_ifs with hreg hibuf hobuf
  · simp only [false_iff]; omega
  · simpa using hibuf
  · simp only [false_iff]; omega
  · simp only [false_iff]; omega

theorem regionOf_obuf_iff (off : Offset) : regionOf off = .obuf ↔ 0x200 ≤ off.toNat ∧ off.toNat < 0x300 := by
  unfold regionOf
  split_ifs with hreg hibuf hobuf
  · simp only [false_iff]; omega
  · simp only [false_iff]; omega
  · simpa using hobuf
  · simp only [false_iff]; omega

theorem aligned_iff (off : Offset) (n : BusSize) : aligned off n = true ↔ off.toNat % n.bytes = 0 := by
  simp [aligned]

/-- An aligned access that starts below a multiple of 4 ends at or below it. -/
theorem add_lt_of_aligned {off k hi : Nat} {n : BusSize} (halign : off % n.bytes = 0) (hoff : off < hi)
    (hk : k < n.bytes) (hhi : hi % 4 = 0) : off + k < hi := by
  cases n <;> simp only [BusSize.bytes] at halign hk <;> omega

/-! ### The bytes of the window's memory -/

theorem memByte_ibuf (s : State) {a : Nat} (h : 0x100 ≤ a ∧ a < 0x140) : s.memByte a = s.ibuf.read a := if_pos h

theorem memByte_obuf (s : State) {a : Nat} (h : 0x200 ≤ a ∧ a < 0x300) : s.memByte a = s.obuf.read a := by
  unfold State.memByte
  simp only [Config.ibufBase, Config.ibufSize, Config.obufBase, Config.obufSize]
  rw [if_neg (by omega), if_pos h]

theorem memByte_congr {s t : State} {a : Nat} (hibuf : t.ibuf.read a = s.ibuf.read a)
    (hobuf : t.obuf.read a = s.obuf.read a) : t.memByte a = s.memByte a := by
  unfold State.memByte
  rw [hibuf, hobuf]

theorem read_writeBytes_of_getElem? (m : Memory) (a k : Nat) {bs : List Byte} {b : Byte} (h : bs[k]? = some b) :
    (m.writeBytes a bs).read (a + k) = b := by
  simp [read_writeBytes, h]

theorem read_writeBytes_outside (m : Memory) {a c : Nat} {bs : List Byte} (h : c < a ∨ a + bs.length ≤ c) :
    (m.writeBytes a bs).read c = m.read c := by
  rw [read_writeBytes]
  split
  · next hle => rw [List.getElem?_eq_none (by omega), Option.getD_none]
  · rfl

/-! ### Writes -/

/-- The unsigned number a bus value stands for. -/
def BusValue.toNat : BusValue → Nat
  | .w8 x => x.toNat
  | .w16 x => x.toNat
  | .w32 x => x.toNat

theorem toBytes_eq_leBytes (v : BusValue) : v.toBytes = leBytes v.size.bytes v.toNat := by cases v <;> rfl

/-- Byte k of a bus value is digit k of its number in base 256 (20_memory.md R65). -/
theorem getElem?_toBytes (v : BusValue) {k : Nat} (hk : k < v.size.bytes) :
    v.toBytes[k]? = some (BitVec.ofNat 8 (v.toNat / 256 ^ k)) := by
  rw [toBytes_eq_leBytes, getElem?_leBytes, if_pos hk]

/-- A write that is no operation is the plain write of its bytes. -/
theorem step_plainWrite (s : State) (rest : List Input) {off : Offset} {v : BusValue}
    (hd : decodeWrite off v = .notAnOperation) :
    step { s with inputs := .hostWrite off v :: rest } = .next (State.busWrite { s with inputs := rest } off v) := by
  rw [step_hostWrite, hd]

theorem step_writeIbuf (s : State) (rest : List Input) {off : Offset} {v : BusValue} (hreg : regionOf off = .ibuf)
    (halign : aligned off v.size = true) :
    step { s with inputs := .hostWrite off v :: rest }
      = .next { s with inputs := rest, ibuf := s.ibuf.writeBytes off.toNat v.toBytes } := by
  rw [step_plainWrite s rest (decodeWrite_notRegister (by simp [hreg]))]
  simp only [State.busWrite, hreg, if_pos halign]

/-! ### Reads -/

/-- Consecutive bytes of a buffer are those of the window's memory wherever the two agree. -/
theorem readBytes_eq_memByte {s : State} {m : Memory} {a n : Nat} (h : ∀ k < n, s.memByte (a + k) = m.read (a + k)) :
    m.readBytes a n = (List.range n).map fun k => s.memByte (a + k) :=
  List.map_congr_left fun k hk => (h k (List.mem_range.mp hk)).symm

/-- An aligned read inside a buffer composes the bytes of the window's memory (20_memory.md R64, R65). -/
theorem readValue_buffer (s : State) {off : Offset} {n : BusSize} (halign : off.toNat % n.bytes = 0)
    (hin : (0x100 ≤ off.toNat ∧ off.toNat < 0x140) ∨ (0x200 ≤ off.toNat ∧ off.toNat < 0x300)) :
    s.readValue off n = n.value (leValue ((List.range n.bytes).map fun k => s.memByte (off.toNat + k))) := by
  have ha := (aligned_iff off n).mpr halign
  unfold State.readValue
  rcases hin with hibuf | hobuf
  · have hbytes := readBytes_eq_memByte (m := s.ibuf) fun k hk => memByte_ibuf s
      ⟨Nat.le_add_right_of_le hibuf.1, add_lt_of_aligned halign hibuf.2 hk (by decide)⟩
    simp only [(regionOf_ibuf_iff off).mpr hibuf, if_pos ha, hbytes]
  · have hbytes := readBytes_eq_memByte (m := s.obuf) fun k hk => memByte_obuf s
      ⟨Nat.le_add_right_of_le hobuf.1, add_lt_of_aligned halign hobuf.2 hk (by decide)⟩
    simp only [(regionOf_obuf_iff off).mpr hobuf, if_pos ha, hbytes]

theorem leValue_four (a b c d : Byte) :
    leValue [a, b, c, d] = a.toNat + 256 * b.toNat + 65536 * c.toNat + 16777216 * d.toNat := by
  simp only [leValue]
  omega

/-- Settles O59: a write goes byte by byte through `getElem?_toBytes`, and a read through `readValue_buffer`. -/
theorem bufferAccessesAreLittleEndian : Obligations.BufferAccessesAreLittleEndian := by
  intro s rest off
  refine ⟨fun v hlo hhi halign => ?_, fun hin => ⟨?_, fun h2 => ?_, fun h4 => ?_⟩⟩
  · refine ⟨_, step_writeIbuf s rest ((regionOf_ibuf_iff off).mpr ⟨hlo, hhi⟩) ((aligned_iff off _).mpr halign), rfl,
      fun k hk => ?_, fun a ha => memByte_congr (read_writeBytes_outside _ ?_) rfl⟩
    · have hend : off.toNat + k < 0x140 := add_lt_of_aligned halign hhi hk (by decide)
      rw [memByte_ibuf _ ⟨by omega, hend⟩, read_writeBytes_of_getElem? _ _ _ (getElem?_toBytes v hk),
        BitVec.toNat_ofNat]
      cases v <;> rfl
    · rwa [length_toBytes]
  · simp [readValue_buffer s (n := .byte) (Nat.mod_one _) hin, BusSize.bytes, BusSize.value, leValue]
  · rw [readValue_buffer s (n := .half) h2 hin]
    simp [BusSize.bytes, BusSize.value, leValue, List.range_succ]
  · rw [readValue_buffer s (n := .word) h4 hin]
    exact congrArg (fun v => BusValue.w32 (BitVec.ofNat 32 v)) (leValue_four ..)

end Sys2Proof.Machine
end

