-- ==== Sys2Proof/Proofs/IgnoredAccesses.lean ====
section
/-! PROOF. Accesses that are not legal and writes of read-only space: they reach no register and no byte, so a write only
passes and a read returns 0 (20_memory.md R62 to R67, 44_control.md R228, R231). -/

namespace Sys2Proof.Machine

/-! ### Accesses that reach no register -/

/-- A register access must be 32 bits wide and aligned (20_memory.md R63). -/
theorem regAccess_of_illegal {off : Offset} {n : BusSize} (h : n ≠ .word ∨ off.toNat % 4 ≠ 0) :
    regAccess off n = none := by
  unfold regAccess
  split
  · next hword =>
    rw [Option.eq_none_iff_forall_ne_some]
    intro r hr
    exact h.elim (· hword) (· (regAt_aligned hr))
  · rfl

theorem decodeWrite_of_regAccess_none {off : Offset} {v : BusValue} (h : regAccess off v.size = none) :
    decodeWrite off v = .notAnOperation := by
  by_contra hd
  obtain ⟨f, w, rfl, rfl, -⟩ := decodeWrite_word hd
  cases f <;> cases h

theorem writeRegValue_of_regAccess_none (s : State) {off : Offset} {v : BusValue} (h : regAccess off v.size = none) :
    s.writeRegValue off v = s := by
  cases v with
  | w8 x => rfl
  | w16 x => rfl
  | w32 w =>
    have hreg : regAt off = none := by simpa [regAccess, BusValue.size] using h
    simp [State.writeRegValue, hreg]

/-! ### Writes that only pass -/

/-- A read-only register, whose write is neither an operation nor a plain write (44_control.md R228). -/
def Reg.ReadOnly (r : Reg) : Prop := r = .cfgInfo ∨ r = .rem ∨ r = .olen ∨ r = .rxCount ∨ r = .consumed

theorem format?_of_readOnly {r : Reg} (h : r.ReadOnly) : r.format? = none := by
  rcases h with rfl | rfl | rfl | rfl | rfl <;> rfl

theorem writeReg_of_readOnly (s : State) (w : Word) {r : Reg} (h : r.ReadOnly) : s.writeReg w r = s := by
  rcases h with rfl | rfl | rfl | rfl | rfl <;> rfl

theorem readOnly_of_offset {off : Offset} (h : off ∈ [(0x018 : Offset), 0x01C, 0x020, 0x024, 0x02C]) :
    ∃ r : Reg, r.ReadOnly ∧ off = r.offset := by
  simp only [List.mem_cons, List.not_mem_nil, or_false] at h
  rcases h with rfl | rfl | rfl | rfl | rfl
  · exact ⟨.cfgInfo, by simp [Reg.ReadOnly], rfl⟩
  · exact ⟨.rem, by simp [Reg.ReadOnly], rfl⟩
  · exact ⟨.olen, by simp [Reg.ReadOnly], rfl⟩
  · exact ⟨.rxCount, by simp [Reg.ReadOnly], rfl⟩
  · exact ⟨.consumed, by simp [Reg.ReadOnly], rfl⟩

/-- Outside the registers no write is an operation, so one that `busWrite` ignores only passes. -/
theorem step_ignoredWrite (s : State) (rest : List Input) {off : Offset} {v : BusValue}
    (hreg : regionOf off ≠ .registers) (h : ∀ u : State, u.busWrite off v = u) :
    step { s with inputs := .hostWrite off v :: rest } = .next { s with inputs := rest } := by
  rw [step_plainWrite s rest (decodeWrite_notRegister hreg), h]

theorem step_writeNoRegister (s : State) (rest : List Input) {off : Offset} {v : BusValue}
    (hreg : regionOf off = .registers) (h : regAccess off v.size = none) :
    step { s with inputs := .hostWrite off v :: rest } = .next { s with inputs := rest } := by
  rw [step_plainWrite s rest (decodeWrite_of_regAccess_none h)]
  simp only [State.busWrite, hreg, writeRegValue_of_regAccess_none _ h]

theorem step_writeReadOnly (s : State) (rest : List Input) {r : Reg} (hr : r.ReadOnly) (v : BusValue) :
    step { s with inputs := .hostWrite r.offset v :: rest } = .next { s with inputs := rest } := by
  have hreg : regionOf r.offset = .registers := by cases r <;> decide
  cases v with
  | w8 x => exact step_writeNoRegister s rest hreg (regAccess_of_illegal (.inl nofun))
  | w16 x => exact step_writeNoRegister s rest hreg (regAccess_of_illegal (.inl nofun))
  | w32 w => rw [step_regWrite s rest r w (format?_of_readOnly hr), writeReg_of_readOnly _ w hr]

/-! ### Reads that return 0 -/

theorem readValue_reserved (s : State) {off : Offset} (n : BusSize) (h : regionOf off = .reserved) :
    s.readValue off n = n.value 0 := by
  simp only [State.readValue, h]

theorem readValue_misaligned (s : State) {off : Offset} {n : BusSize}
    (hreg : regionOf off = .ibuf ∨ regionOf off = .obuf) (halign : off.toNat % n.bytes ≠ 0) :
    s.readValue off n = n.value 0 := by
  have ha : ¬ aligned off n = true := mt (aligned_iff off n).mp halign
  rcases hreg with h | h <;> simp only [State.readValue, h, if_neg ha]

theorem readValue_noRegister (s : State) {off : Offset} {n : BusSize} (hreg : regionOf off = .registers)
    (h : regAccess off n = none) : s.readValue off n = n.value 0 := by
  simp only [State.readValue, hreg, h]

/-- Settles O60, one lemma for each kind of access that is not performed. -/
theorem illegalAccessesAreIgnored : Obligations.IllegalAccessesAreIgnored := by
  intro s rest off v n
  constructor
  · rintro (hres | hobuf | ⟨hibuf, halign⟩ | ⟨hreg, hillegal⟩ | hro)
    · exact step_ignoredWrite s rest (by simp [hres]) fun u => by simp only [State.busWrite, hres]
    · exact step_ignoredWrite s rest (by simp [hobuf]) fun u => by simp only [State.busWrite, hobuf]
    · have ha : ¬ aligned off v.size = true := mt (aligned_iff off _).mp halign
      exact step_ignoredWrite s rest (by simp [hibuf]) fun u => by simp only [State.busWrite, hibuf, if_neg ha]
    · exact step_writeNoRegister s rest hreg (regAccess_of_illegal hillegal)
    · obtain ⟨r, hr, rfl⟩ := readOnly_of_offset hro
      exact step_writeReadOnly s rest hr v
  · rintro (hres | ⟨hbuf, halign⟩ | ⟨hreg, hillegal⟩)
    · exact readValue_reserved s n hres
    · exact readValue_misaligned s hbuf halign
    · exact readValue_noRegister s hreg (regAccess_of_illegal hillegal)

end Sys2Proof.Machine
end

