-- ==== Sys2Proof/Proofs/CommandWords.lean ====
section
/-! PROOF. The command words of format CMD as numbers: the opcode map as a list, the decoder's three outcomes from the
word's value, and decoding as the exact inverse of encoding (30_encoding.md R91 to R98). -/

namespace Sys2Proof

/-! ### The opcode map -/

/-- The opcode map of 30_encoding.md R93 in opcode order, with LEN `n`. -/
def commandTable (n : Nat) : List Instr :=
  [.nop, .crcEnc n, .crcVal n, .parEnc n, .parVal n, .stuff n, .build n, .decode, .rxflush]

/-- The opcode of an operation of format CMD, `none` for the two other formats (30_encoding.md R93). -/
def Instr.opcode? : Instr → Option Nat
  | .nop => some 0
  | .crcEnc _ => some 1
  | .crcVal _ => some 2
  | .parEnc _ => some 3
  | .parVal _ => some 4
  | .stuff _ => some 5
  | .build _ => some 6
  | .decode => some 7
  | .rxflush => some 8
  | .rxpush _ | .srst => none

theorem commandOf_eq_getElem? (op : Byte) (n : Nat) : commandOf op n = (commandTable n)[op.toNat]? := by
  unfold commandOf
  generalize op.toNat = k
  match k with
  | 0 | 1 | 2 | 3 | 4 | 5 | 6 | 7 | 8 => rfl
  | _ + 9 => rfl

/-- The map gives each opcode the one operation with that opcode and, where it takes one, that LEN. -/
theorem getElem?_commandTable {n k : Nat} {i : Instr} :
    (commandTable n)[k]? = some i ↔ i.opcode? = some k ∧ i.len?.getD n = n := by
  constructor
  · intro h
    have hk : k < 9 := (List.getElem?_eq_some_iff.mp h).1
    interval_cases k <;> cases h <;> exact ⟨rfl, rfl⟩
  · rintro ⟨hop, hlen⟩
    cases i <;> cases hop <;> rw [← hlen] <;> rfl

theorem opcode?_le {i : Instr} {k : Nat} (h : i.opcode? = some k) : k ≤ 8 := by
  cases i <;> cases h <;> decide

theorem format_of_opcode? {i : Instr} {k : Nat} (h : i.opcode? = some k) : i.format = .cmd := by
  cases i <;> cases h <;> rfl

theorem exists_opcode? {i : Instr} (h : i.format = .cmd) : ∃ k, i.opcode? = some k := by
  cases i <;> cases h <;> exact ⟨_, rfl⟩

/-- NOP, DECODE and RXFLUSH are the commands that take no LEN (30_encoding.md R92). -/
theorem len?_eq_none_iff {i : Instr} {k : Nat} (h : i.opcode? = some k) : i.len? = none ↔ k = 0 ∨ k = 7 ∨ k = 8 := by
  cases i <;> cases h <;> simp [Instr.len?]

/-! ### The encoder's word as a number -/

theorem wellFormed_iff (i : Instr) : i.wellFormed = true ↔ i.len?.getD 0 < 65536 := by
  cases i <;> simp [Instr.wellFormed, Instr.len?, lenFits]

theorem encode_eq_cmdWord {i : Instr} {k : Nat} (h : i.opcode? = some k) : encode i = cmdWord k (i.len?.getD 0) := by
  cases i <;> cases h <;> rfl

theorem encode_toNat {i : Instr} {k : Nat} (h : i.opcode? = some k) (hi : i.wellFormed = true) :
    (encode i).toNat = i.len?.getD 0 * 65536 + k := by
  have hk := opcode?_le h
  rw [encode_eq_cmdWord h, cmdWord_toNat k _ (by omega) ((wellFormed_iff i).mp hi)]

/-! ### The outcomes of the decoder -/

theorem rsvdField_eq_zero_iff (w : Word) : rsvdField w = 0 ↔ w.toNat / 256 % 256 = 0 := by
  rw [← rsvdField_toNat, ← BitVec.toNat_inj]
  rfl

theorem lenField_eq_zero_iff (w : Word) : lenField w = 0 ↔ w.toNat / 65536 = 0 := by
  rw [← lenField_toNat, ← BitVec.toNat_inj]
  rfl

/-- The operation decodeCmd finds for a word, before it looks at the reserved fields. -/
theorem commandOf_fields (w : Word) :
    commandOf (opcodeField w) (lenField w).toNat = (commandTable (w.toNat / 65536))[w.toNat % 256]? := by
  rw [commandOf_eq_getElem?, opcodeField_toNat, lenField_toNat]

theorem exists_command {k : Nat} (n : Nat) (hk : k ≤ 8) : ∃ i, (commandTable n)[k]? = some i :=
  ⟨_, List.getElem?_eq_getElem (Nat.lt_succ_of_le hk)⟩

/-- The first check of 30_encoding.md R95. -/
theorem decode_illegalOpcode {w : Word} (h : 8 < w.toNat % 256) : decode .cmd w = .reject .illegalOpcode := by
  have hnone : (commandTable (w.toNat / 65536))[w.toNat % 256]? = none := List.getElem?_eq_none h
  simp only [decode, decodeCmd, commandOf_fields, hnone]

/-- RSVD, or LEN on a command that takes none, is not 0 (30_encoding.md R94). -/
abbrev ReservedFieldSet (w : Word) : Prop :=
  w.toNat / 256 % 256 ≠ 0
    ∨ ((w.toNat % 256 = 0 ∨ w.toNat % 256 = 7 ∨ w.toNat % 256 = 8) ∧ w.toNat / 65536 ≠ 0)

/-- The second and third check of 30_encoding.md R95, on a word whose opcode selects a command. -/
theorem decode_of_command {w : Word} {i : Instr} (h : (commandTable (w.toNat / 65536))[w.toNat % 256]? = some i) :
    decode .cmd w = if ReservedFieldSet w then .reject .reservedField else .instr i := by
  have hlen := len?_eq_none_iff (getElem?_commandTable.mp h).1
  simp only [decode, decodeCmd, commandOf_fields, h, ne_eq, rsvdField_eq_zero_iff, lenField_eq_zero_iff, hlen,
    ReservedFieldSet, ite_or]

theorem decode_reservedField {w : Word} (hop : w.toNat % 256 ≤ 8) (h : ReservedFieldSet w) :
    decode .cmd w = .reject .reservedField := by
  obtain ⟨i, hi⟩ := exists_command (w.toNat / 65536) hop
  rw [decode_of_command hi, if_pos h]

/-- A command word decodes to an operation exactly when its fields are that operation's opcode, 0, and its LEN. -/
theorem decode_cmd_eq_instr_iff {w : Word} {i : Instr} :
    decode .cmd w = .instr i ↔
      i.opcode? = some (w.toNat % 256) ∧ w.toNat / 256 % 256 = 0 ∧ w.toNat / 65536 = i.len?.getD 0 := by
  constructor
  · intro h
    by_cases hop : 8 < w.toNat % 256
    · rw [decode_illegalOpcode hop] at h
      cases h
    · obtain ⟨j, hj⟩ := exists_command (w.toNat / 65536) (not_lt.mp hop)
      rw [decode_of_command hj] at h
      split_ifs at h with hres
      cases h
      obtain ⟨hopc, hlen⟩ := getElem?_commandTable.mp hj
      obtain ⟨hrsv, hnone⟩ := not_or.mp hres
      refine ⟨hopc, not_not.mp hrsv, ?_⟩
      cases hl : i.len? with
      | none => exact not_not.mp fun hn => hnone ⟨(len?_eq_none_iff hopc).mp hl, hn⟩
      | some m => simpa [hl] using hlen.symm
  · rintro ⟨hop, hrsv, hlen⟩
    have hi : (commandTable (w.toNat / 65536))[w.toNat % 256]? = some i := by
      refine getElem?_commandTable.mpr ⟨hop, ?_⟩
      cases hl : i.len? <;> simp [hl, hlen]
    rw [decode_of_command hi, if_neg]
    rintro (h | ⟨hnone, h⟩)
    · exact h hrsv
    · simp [hlen, (len?_eq_none_iff hop).mpr hnone] at h

/-! ### Decoding inverts encoding -/

theorem decode_encode_of_cmd {i : Instr} (hf : i.format = .cmd) (hi : i.wellFormed = true) :
    decode .cmd (encode i) = .instr i := by
  obtain ⟨k, hk⟩ := exists_opcode? hf
  have hle := opcode?_le hk
  rw [decode_cmd_eq_instr_iff, encode_toNat hk hi]
  refine ⟨?_, by omega, by omega⟩
  rw [hk]
  congr 1
  omega

/-- Settles O1: in format CMD by the word's number, in RXDATA by its low byte, and the word of SRST has bit 1 set. -/
theorem decodeOfEncodeGivesTheOperation : Obligations.DecodeOfEncodeGivesTheOperation := by
  intro i hi
  cases i
  case rxpush b => simp [Instr.format, encode, decode, ← BitVec.setWidth_eq_extractLsb']
  case srst => rfl
  all_goals exact decode_encode_of_cmd rfl hi

/-- Settles O2: the word's three fields are the operation's, and with the opcode below 256 they fix its number. -/
theorem commandWordIsTheOneEncodingOfItsOperation : Obligations.CommandWordIsTheOneEncodingOfItsOperation := by
  intro w i h
  obtain ⟨hop, hrsv, hlen⟩ := decode_cmd_eq_instr_iff.mp h
  have hi : i.wellFormed = true := by
    rw [wellFormed_iff]
    omega
  refine ⟨BitVec.eq_of_toNat_eq ?_, format_of_opcode? hop, hi⟩
  rw [encode_toNat hop hi]
  omega

/-- Settles O3, one lemma for each check of the procedure. -/
theorem commandDecodingFollowsTheProcedure : Obligations.CommandDecodingFollowsTheProcedure := by
  rintro w _ _ _ rfl rfl rfl
  split_ifs with hop hrsv hlen
  · exact decode_illegalOpcode hop
  · exact decode_reservedField (not_lt.mp hop) (.inl hrsv)
  · exact decode_reservedField (not_lt.mp hop) (.inr hlen)
  · obtain ⟨i, hi⟩ := exists_command (w.toNat / 65536) (not_lt.mp hop)
    refine ⟨i, hi, ?_⟩
    rw [decode_of_command hi, if_neg (not_or.mpr ⟨hrsv, hlen⟩)]

/-- Settles O4: each word is evaluated. -/
theorem listedCommandWordsDecode : Obligations.ListedCommandWordsDecode := by
  unfold Obligations.ListedCommandWordsDecode
  decide

end Sys2Proof
end

