-- ==== Sys2Proof/Proofs/OperationWrites.lean ====
section
/-! PROOF. Words written to CMD, RXDATA and CTRL: the step runs the operation the word decodes to in the register's
format, rejects the word, or is the plain write of CTRL.SCHEME (30_encoding.md R94 to R98, 44_control.md R220, R223). -/

namespace Sys2Proof.Machine

theorem step_port_instr (s : State) (rest : List Input) {f : Format} {w : Word} {i : Instr}
    (hd : decode f w = .instr i) :
    step { s with inputs := .hostWrite (portOf f).offset (.w32 w) :: rest } = exec i { s with inputs := rest } := by
  rw [step_hostWrite, decodeWrite_port, hd]

theorem step_port_reject (s : State) (rest : List Input) {f : Format} {w : Word} {e : DecodeReject}
    (hd : decode f w = .reject e) :
    step { s with inputs := .hostWrite (portOf f).offset (.w32 w) :: rest }
      = .next (State.reject { s with inputs := rest } (rejectCode e)) := by
  rw [step_hostWrite, decodeWrite_port, hd]

/-- Settles O6: the word decodes to the operation (O1), and the step runs what it decodes to. -/
theorem writingTheEncodedWordRunsTheOperation : Obligations.WritingTheEncodedWordRunsTheOperation :=
  fun s rest i hi => step_port_instr s rest (decodeOfEncodeGivesTheOperation i hi)

/-! ### RXDATA and CTRL -/

/-- Bit k of a word from its number. -/
theorem getLsbD_iff (w : Word) (k : Nat) : w.getLsbD k = true ↔ w.toNat / 2 ^ k % 2 = 1 := by
  rw [← BitVec.testBit_toNat, Nat.testBit_eq_decide_div_mod_eq, decide_eq_true_eq]

theorem decode_rxdata (w : Word) : decode .rxdata w = .instr (.rxpush (BitVec.ofNat 8 (w.toNat % 256))) := by
  have hbyte : w.extractLsb' 0 8 = BitVec.ofNat 8 (w.toNat % 256) := BitVec.eq_of_toNat_eq (by simp)
  rw [decode, hbyte]

theorem decode_ctrl (w : Word) : decode .ctrl w = if w.toNat / 2 % 2 = 1 then .instr .srst else .notAnOperation := by
  simp only [decode, getLsbD_iff, pow_one]

theorem ofBit_getLsbD_zero (w : Word) : Scheme.ofBit (w.getLsbD 0) = if w.toNat % 2 = 1 then .parity else .crc := by
  simp only [Scheme.ofBit, getLsbD_iff, pow_zero, Nat.div_one]

/-- A CTRL word with SRST clear is the plain write of SCHEME (44_control.md R223). -/
theorem step_writeCtrl (s : State) (rest : List Input) {w : Word} (hd : decode .ctrl w = .notAnOperation) :
    step { s with inputs := .hostWrite 0x000 (.w32 w) :: rest }
      = .next { s with inputs := rest, scheme := Scheme.ofBit (w.getLsbD 0) } :=
  step_plainWrite s rest ((decodeWrite_port .ctrl w).trans hd)

/-- Settles O7: every RXDATA word is a push, and bit 1 of a CTRL word tells the reset from the plain write. -/
theorem rxdataAndCtrlWritesPushAndReset : Obligations.RxdataAndCtrlWritesPushAndReset := by
  intro s rest w
  refine ⟨step_port_instr s rest (decode_rxdata w), ?_⟩
  split
  · next hbit => exact step_port_instr s rest (f := .ctrl) (by rw [decode_ctrl, if_pos hbit])
  · next hbit => rw [step_writeCtrl s rest (by rw [decode_ctrl, if_neg hbit]), ofBit_getLsbD_zero]

/-! ### Rejected command words -/

/-- Settles O8: the word is rejected by the check of 30_encoding.md R95 that it fails. -/
theorem undecodableCommandWordOnlyWritesStatus : Obligations.UndecodableCommandWordOnlyWritesStatus := by
  rintro s rest w _ _ _ rfl rfl rfl
  split_ifs with hop hres
  · exact step_port_reject s rest (decode_illegalOpcode hop)
  · exact step_port_reject s rest (decode_reservedField (not_lt.mp hop) hres)

end Sys2Proof.Machine
end

