-- ==== Sys2Proof/Proofs/CrcDivision.lean ====
section
/-! PROOF. The division engine bit by bit: the remainder stays below 2^d, and a single-term generator reduces the number
a bit sequence stands for modulo 2^d (40_crc.md R112 to R114, R124). -/

namespace Sys2Proof.Machine

/-! ### The register bound -/

@[simp] theorem divBits_nil (G : Nat) : divBits G [] = 0 := rfl

theorem divBits_concat (G : Nat) (bits : List Bool) (b : Bool) :
    divBits G (bits ++ [b]) = divStep G (divBits G bits) b := by
  simp [divBits]

/-- The register with the next bit shifted in, before any subtraction, needs at most d + 1 bits (40_crc.md R114). -/
theorem two_mul_add_lt {R d : Nat} (b : Bool) (hR : R < 2 ^ d) : 2 * R + b.toNat < 2 ^ (d + 1) := by
  have hb := b.toNat_le
  rw [Nat.pow_succ]
  omega

theorem lt_two_pow_of_testBit_false {x d : Nat} (hx : x < 2 ^ (d + 1)) (hbit : x.testBit d = false) : x < 2 ^ d := by
  by_contra hle
  simp [Nat.testBit_of_two_pow_le_and_two_pow_add_one_gt (not_lt.mp hle) hx] at hbit

/-- Subtracting the generator clears bit d, and without it bit d is clear already (40_crc.md R114). -/
theorem divStep_lt {G R : Nat} (b : Bool) (hG : 1 ≤ G) (hR : R < 2 ^ degree G) : divStep G R b < 2 ^ degree G := by
  have hx := two_mul_add_lt b hR
  rw [divStep_eq b hR]
  by_cases hbit : (2 * R + b.toNat).testBit (degree G) = true
  · rw [if_pos hbit]
    refine lt_two_pow_of_testBit_false (Nat.xor_lt_two_pow hx (degree_bounds hG).2) ?_
    rw [Nat.testBit_xor, hbit, degree_testBit hG, Bool.xor_self]
  · rw [if_neg hbit, Nat.xor_zero]
    exact lt_two_pow_of_testBit_false hx (by simpa using hbit)

/-- Every remainder is below 2^d (40_crc.md R114). -/
theorem divBits_lt {G : Nat} (hG : 1 ≤ G) (bits : List Bool) : divBits G bits < 2 ^ degree G := by
  induction bits using List.reverseRecOn with
  | nil => exact Nat.two_pow_pos _
  | append_singleton bits b ih =>
    rw [divBits_concat]
    exact divStep_lt b hG ih

/-! ### The number a sequence stands for -/

/-- The number whose binary digits are a bit sequence, first bit most significant. -/
def bitsValue (bits : List Bool) : Nat := bits.foldl (fun a b => 2 * a + b.toNat) 0

/-- The number whose base-256 digits are a byte sequence, first byte most significant. -/
def bytesValue (bs : List Byte) : Nat := bs.foldl (fun a b => a * 256 + b.toNat) 0

theorem bitsValue_concat (bits : List Bool) (b : Bool) : bitsValue (bits ++ [b]) = 2 * bitsValue bits + b.toNat := by
  simp [bitsValue]

theorem bytesValue_concat (bs : List Byte) (b : Byte) : bytesValue (bs ++ [b]) = bytesValue bs * 256 + b.toNat := by
  simp [bytesValue]

theorem bitsValue_append_zeros (bits : List Bool) (n : Nat) :
    bitsValue (bits ++ List.replicate n false) = bitsValue bits * 2 ^ n := by
  induction n with
  | zero => simp
  | succ n ih =>
    rw [List.replicate_succ', ← List.append_assoc, bitsValue_concat, ih, Nat.pow_succ, Bool.toNat_false]
    ring

/-- The eight bits of a byte append its value as one base-256 digit (40_crc.md R111). -/
theorem bitsValue_append_bitsOf1 (bits : List Bool) (b : Byte) :
    bitsValue (bits ++ bitsOf1 b) = bitsValue bits * 256 + b.toNat := by
  have hb := b.isLt
  simp only [bitsValue, bitsOf1, List.foldl_append, List.foldl_cons, List.foldl_nil, ← BitVec.testBit_toNat,
    Nat.toNat_testBit]
  omega

theorem bitsOf_concat (bs : List Byte) (b : Byte) : bitsOf (bs ++ [b]) = bitsOf bs ++ bitsOf1 b := by
  simp [bitsOf]

theorem bitsValue_bitsOf (bs : List Byte) : bitsValue (bitsOf bs) = bytesValue bs := by
  induction bs using List.reverseRecOn with
  | nil => rfl
  | append_singleton bs b ih => rw [bitsOf_concat, bitsValue_append_bitsOf1, bytesValue_concat, ih]

/-! ### Single-term generators -/

theorem degree_two_pow (d : Nat) : degree (2 ^ d) = d := by
  simp [degree, bitlen]

/-- Subtracting 2^d from a register of d + 1 bits whenever bit d is set leaves its low d bits. -/
theorem xor_ite_two_pow_eq_mod {x d : Nat} (hx : x < 2 ^ (d + 1)) :
    x ^^^ (if x.testBit d then 2 ^ d else 0) = x % 2 ^ d := by
  refine Nat.eq_of_testBit_eq fun i => ?_
  rw [Nat.testBit_xor, Nat.testBit_mod_two_pow]
  rcases Nat.lt_trichotomy i d with hlt | rfl | hgt
  · split <;> simp [hlt, hlt.ne']
  · cases x.testBit i <;> simp
  · have hxi : x.testBit i = false := Nat.testBit_lt_two_pow (hx.trans_le (Nat.pow_le_pow_right (by omega) hgt))
    split <;> simp [hxi, hgt.ne, hgt.not_gt]

/-- The step of a single-term generator drops what is shifted beyond bit d - 1 (40_crc.md R124). -/
theorem divStep_two_pow {d R : Nat} (b : Bool) (hR : R < 2 ^ d) : divStep (2 ^ d) R b = (2 * R + b.toNat) % 2 ^ d := by
  have hstep := divStep_eq (G := 2 ^ d) b (by rwa [degree_two_pow])
  rw [degree_two_pow] at hstep
  rw [hstep, xor_ite_two_pow_eq_mod (two_mul_add_lt b hR)]

theorem divBits_two_pow (d : Nat) (bits : List Bool) : divBits (2 ^ d) bits = bitsValue bits % 2 ^ d := by
  induction bits using List.reverseRecOn with
  | nil => simp [bitsValue]
  | append_singleton bits b ih =>
    rw [divBits_concat, ih, divStep_two_pow b (Nat.mod_lt _ (Nat.two_pow_pos d)), bitsValue_concat]
    simp [Nat.add_mod, Nat.mul_mod]

/-- The d zero bits behind the payload are all the remainder keeps (40_crc.md R124). -/
theorem crcRem_two_pow (d : Nat) (P : List Byte) : crcRem (2 ^ d) P = 0 := by
  rw [crcRem, divBits_two_pow, degree_two_pow, bitsValue_append_zeros, Nat.mul_mod_left]

theorem crcRemainder_two_pow (d : Nat) (M : List Byte) : crcRemainder (2 ^ d) M = bytesValue M % 2 ^ d := by
  rw [crcRemainder, divBits_two_pow, bitsValue_bitsOf]

end Sys2Proof.Machine
end

