-- ==== Sys2Proof/Proofs/CrcCode.lean ====
section
/-! PROOF. The bytes of a code: the value they spell most significant byte first, and the code of a single-term
generator (40_crc.md R115, R124). -/

namespace Sys2Proof.Machine

/-! ### The bytes of a code value -/

/-- The last byte holds the low 8 bits, and the bytes before it spell the rest. -/
theorem codeBytes_succ (L C : Nat) : codeBytes (L + 1) C = codeBytes L (C / 256) ++ [BitVec.ofNat 8 C] := by
  unfold codeBytes
  rw [List.range_succ, List.map_append, List.map_singleton]
  congr 1
  · refine List.map_congr_left fun i hi => ?_
    have hi := List.mem_range.mp hi
    rw [show 8 * (L + 1 - 1 - i) = 8 + 8 * (L - 1 - i) by omega, Nat.shiftRight_add, Nat.shiftRight_eq_div_pow C 8]
  · simp

/-- L bytes spell a value modulo 256^L (40_crc.md R115). -/
theorem bytesValue_codeBytes (L C : Nat) : bytesValue (codeBytes L C) = C % 256 ^ L := by
  induction L generalizing C with
  | zero => simp [bytesValue, codeBytes, Nat.mod_one]
  | succ L ih =>
    rw [codeBytes_succ, bytesValue_concat, ih, BitVec.toNat_ofNat, Nat.pow_succ' (n := L), Nat.mod_mul]
    omega

theorem codeBytes_zero (L : Nat) : codeBytes L 0 = List.replicate L 0 := by
  induction L with
  | zero => rfl
  | succ L ih => rw [codeBytes_succ, Nat.zero_div, ih, List.replicate_succ', BitVec.ofNat_eq_ofNat]

/-! ### The code of a payload -/

theorem crcRem_lt {G : Nat} (hG : 1 ≤ G) (P : List Byte) : crcRem G P < 2 ^ degree G := divBits_lt hG _

/-- The remainder moved up to a whole number of bytes still fits them (40_crc.md R115). -/
theorem shifted_crcRem_lt {G : Nat} (hG : 1 ≤ G) (P : List Byte) :
    crcRem G P <<< (8 * crcLen G - degree G) < 256 ^ crcLen G := by
  calc crcRem G P <<< (8 * crcLen G - degree G)
      = crcRem G P * 2 ^ (8 * crcLen G - degree G) := Nat.shiftLeft_eq _ _
    _ < 2 ^ degree G * 2 ^ (8 * crcLen G - degree G) :=
      Nat.mul_lt_mul_of_pos_right (crcRem_lt hG P) (Nat.two_pow_pos _)
    _ = 2 ^ (8 * crcLen G) := by rw [← Nat.pow_add, Nat.add_sub_cancel' (degree_le_bits G)]
    _ = 256 ^ crcLen G := Nat.pow_mul 2 8 _

theorem bytesValue_crcEncode {G : Nat} (hG : 1 ≤ G) (P : List Byte) :
    bytesValue (crcEncode G P).2 = crcRem G P * 2 ^ (8 * crcLen G - degree G) := by
  rw [crcEncode, bytesValue_codeBytes, Nat.mod_eq_of_lt (shifted_crcRem_lt hG P), Nat.shiftLeft_eq]

/-- Settles O28: `codeBytes` spells the shifted remainder, which fits its bytes. -/
theorem crcCodeIsTheShiftedRemainder : Obligations.CrcCodeIsTheShiftedRemainder := fun _ P hG =>
  ⟨rfl, length_codeBytes _ _, bytesValue_crcEncode (Nat.le_of_succ_le hG) P⟩

theorem crcEncode_two_pow (d : Nat) (P : List Byte) :
    crcEncode (2 ^ d) P = (0, List.replicate ((d + 7) / 8) 0) := by
  rw [crcEncode, crcRem_two_pow, Nat.zero_shiftLeft, codeBytes_zero, crcLen, degree_two_pow]

/-- Settles O32: both parts are reductions modulo 2^d, of a multiple of 2^d for the code. -/
theorem singleTermGeneratorKeepsTheLastBits : Obligations.SingleTermGeneratorKeepsTheLastBits := fun d M _ =>
  ⟨crcEncode_two_pow d M, crcRemainder_two_pow d M⟩

end Sys2Proof.Machine
end

