-- ==== Sys2Proof/Proofs/CrcCommands.lean ====
section
/-! PROOF. What a coder command that completes leaves behind, once for every output, remainder and RESULT, and from it
CRC.ENC and CRC.VAL (40_crc.md R121, R122, 44_control.md R221). -/

namespace Sys2Proof.Machine

/-! ### A coder command that completes -/

/-- The effect of a coder command that is accepted: its output, REM, and STATUS. -/
def State.coded (s : State) (out : List Byte) (r : Nat) (res : Result) : State :=
  ((s.setOutput out).setRem r).accept res

theorem outputIs_coded (s : State) {out : List Byte} (r : Nat) (res : Result) (hout : out.length ≤ 256) :
    OutputIs (s.coded out r res) out :=
  outputIs_of_fresh (d := s.draws) hout rfl rfl

theorem coded_rem_toNat (s : State) (out : List Byte) {r : Nat} (res : Result) (hr : r < 2 ^ 32) :
    (s.coded out r res).rem.toNat = r :=
  (BitVec.toNat_ofNat r 32).trans (Nat.mod_eq_of_lt hr)

theorem reports_coded (s : State) (out : List Byte) (r : Nat) (res : Result) : Reports (s.coded out r res) res :=
  ⟨rfl, rfl⟩

/-- A coder command touches neither the configuration nor the receive side nor the agents nor IBUF (44_control.md
R221). -/
theorem coded_frame (s : State) (out : List Byte) (r : Nat) (res : Result) :
    SameConfig s (s.coded out r res) ∧ SameReceive s (s.coded out r res) ∧ SameAgents s (s.coded out r res)
      ∧ SameMemoryButObuf s (s.coded out r res) :=
  ⟨⟨rfl, rfl, rfl, rfl, rfl⟩, ⟨rfl, rfl, rfl⟩, ⟨rfl, rfl⟩, sameMemoryButObuf_of_ibuf rfl⟩

/-- A command without tags is accepted when its LEN fits and the generator, if it uses one, is legal (60_exceptions.md
R254). -/
theorem check_coder {s : State} {i : Instr} {n : Nat} (hlen : i.len? = some n) (htags : usesTags i = false)
    (hn : n ≤ 64) (hG : s.usesGen i = true → 2 ≤ s.G) : s.commandCheck i = .none :=
  (commandCheck_none_iff s i).mpr ⟨by simpa [lenTooLong_of_len? hlen] using hn, hG, by simp [htags]⟩

/-! ### CRC.ENC and CRC.VAL -/

theorem exec_crcEnc {s : State} {n : Nat} (hn : n ≤ 64) (hG : 2 ≤ s.G) :
    exec (.crcEnc n) s
      = .next (s.coded (crcEncode s.G (s.input n)).2 (crcEncode s.G (s.input n)).1 .ok) :=
  congrArg _ (command_accept _ _ _ (check_coder rfl rfl hn fun _ => hG))

theorem exec_crcVal {s : State} {n : Nat} (hn : n ≤ 64) (hG : 2 ≤ s.G) :
    exec (.crcVal n) s
      = .next (s.coded [] (crcRemainder s.G (s.input n)) (validation (crcRemainder s.G (s.input n)))) :=
  congrArg _ (command_accept _ _ _ (check_coder rfl rfl hn fun _ => hG))

/-- G has at most 33 bits, so every remainder fits REM (40_crc.md R125). -/
theorem divBits_lt_two_pow_32 {s : State} (hG : 2 ≤ s.G) (bits : List Bool) : divBits s.G bits < 2 ^ 32 :=
  (divBits_lt (Nat.le_of_succ_le hG) bits).trans_le (Nat.pow_le_pow_right (by omega) (degree_le_32 (G_lt s)))

/-- Settles O24: the code has at most 4 bytes and the remainder at most 32 bits. -/
theorem crcEncWritesCodeAndRemainder : Obligations.CrcEncWritesCodeAndRemainder := by
  intro s n hn hG
  have hcode := length_crcEncode_le s (s.input n)
  exact ⟨_, exec_crcEnc hn hG, outputIs_coded s _ _ (by omega), coded_rem_toNat s _ _ (divBits_lt_two_pow_32 hG _),
    reports_coded s _ _ _, coded_frame s _ _ _⟩

/-- Settles O25: no output, a remainder of at most 32 bits, and its validation. -/
theorem crcValReportsTheRemainder : Obligations.CrcValReportsTheRemainder := by
  intro s n hn hG
  exact ⟨_, exec_crcVal hn hG, rfl, coded_rem_toNat s _ _ (divBits_lt_two_pow_32 hG _), reports_coded s _ _ _,
    coded_frame s _ _ _⟩

end Sys2Proof.Machine
end

