-- ==== Sys2Proof/Proofs/Parity.lean ====
section
/-! PROOF. Parity as the number of set bits modulo 2, its linearity over the XOR of two sequences, and from them the
parity code and the errors it detects (41_parity.md R142, R143, R144, R147). -/

namespace Sys2Proof.Machine

/-! ### Parity as a count modulo 2 -/

/-- XOR is addition modulo 2. -/
theorem mod_two_xor_mod_two (a b : Nat) : (a % 2) ^^^ (b % 2) = (a + b) % 2 := by
  rw [← Nat.xor_mod_two_eq]
  exact (Nat.xor_mod_two_pow (n := 1)).symm

theorem framesParity_concat (bs : List Byte) (b : Byte) : framesParity (bs ++ [b]) = framesParity bs ^^^ bitParity b := by
  simp [framesParity]

/-- The parity counts the set bits of all bytes modulo 2 (41_parity.md R142). -/
theorem framesParity_eq_sum (bs : List Byte) : framesParity bs = (bs.map popcount).sum % 2 := by
  induction bs using List.reverseRecOn with
  | nil => rfl
  | append_singleton bs b ih =>
    rw [framesParity_concat, ih, bitParity, mod_two_xor_mod_two]
    simp

theorem framesParity_append (bs cs : List Byte) : framesParity (bs ++ cs) = framesParity bs ^^^ framesParity cs := by
  simp only [framesParity_eq_sum, mod_two_xor_mod_two, List.map_append, List.sum_append]

/-- A sum does not depend on the order of its terms (41_parity.md R142). -/
theorem framesParity_perm {bs cs : List Byte} (h : bs.Perm cs) : framesParity bs = framesParity cs := by
  rw [framesParity_eq_sum, framesParity_eq_sum, (h.map popcount).sum_eq]

/-- Settles O35: the parity is a sum modulo 2. -/
theorem parityIsThatOfTheBitCount : Obligations.ParityIsThatOfTheBitCount :=
  ⟨framesParity_eq_sum, framesParity_append, fun _ _ => framesParity_perm⟩

/-! ### The parity code -/

theorem framesParity_eq_zero_or_one (bs : List Byte) : framesParity bs = 0 ∨ framesParity bs = 1 := by
  have := framesParity_lt bs
  omega

/-- The byte 0x00 or 0x01 has the parity it spells (41_parity.md R143). -/
theorem framesParity_parityCode (P : List Byte) : framesParity (parityCode P) = framesParity P := by
  unfold parityCode
  rcases framesParity_eq_zero_or_one P with h | h <;> rw [h] <;> decide

/-- Settles O36: the code has the payload's parity, which therefore cancels. -/
theorem parityCodedSequenceIsEven : Obligations.ParityCodedSequenceIsEven := by
  intro P
  refine ⟨?_, rfl, ?_⟩
  · exact (framesParity_eq_zero_or_one P).imp (fun h => by rw [parityCode, h]; rfl) (fun h => by rw [parityCode, h]; rfl)
  · rw [framesParity_append, framesParity_parityCode, Nat.xor_self]

/-! ### Linearity and the errors parity detects -/

/-- Where both hold the XOR loses two from the count, so its parity stays. -/
theorem countP_xor_mod_two {α : Type} (p q : α → Bool) (l : List α) :
    l.countP (fun x => p x ^^ q x) % 2 = (l.countP p + l.countP q) % 2 := by
  induction l with
  | nil => rfl
  | cons x l ih =>
    simp only [List.countP_cons]
    cases p x <;> cases q x <;> simp <;> omega

theorem bitParity_xor (a b : Byte) : bitParity (a ^^^ b) = bitParity a ^^^ bitParity b := by
  simp only [bitParity, popcount, mod_two_xor_mod_two, BitVec.getLsbD_xor, countP_xor_mod_two]

theorem framesParity_cons (b : Byte) (bs : List Byte) : framesParity (b :: bs) = bitParity b ^^^ framesParity bs := by
  rw [← List.singleton_append, framesParity_append]
  simp [framesParity]

/-- The parity of the XOR of two sequences of equal length is the XOR of their parities. -/
theorem framesParity_zipWith_xor {M E : List Byte} (h : M.length = E.length) :
    framesParity (List.zipWith (· ^^^ ·) M E) = framesParity M ^^^ framesParity E := by
  induction M generalizing E with
  | nil => rw [List.length_eq_zero_iff.mp h.symm]; rfl
  | cons m M ih =>
    obtain ⟨e, E, rfl⟩ := List.exists_cons_of_length_eq_add_one h.symm
    rw [List.zipWith_cons_cons, framesParity_cons, framesParity_cons, framesParity_cons, ih (by simpa using h),
      bitParity_xor]
    ac_rfl

/-- Settles O37: the altered sequence has the parity of the error pattern alone. -/
theorem parityDetectsExactlyOddErrors : Obligations.ParityDetectsExactlyOddErrors := by
  intro M E hlen hM
  rw [framesParity_zipWith_xor hlen, hM, Nat.zero_xor, framesParity_eq_sum]
  exact Nat.mod_two_ne_zero

end Sys2Proof.Machine
end

