-- ==== Sys2Proof/Proofs/ParityCommands.lean ====
section
/-! PROOF. PAR.ENC and PAR.VAL as coder commands that always complete (41_parity.md R145, R146, 44_control.md R221). -/

namespace Sys2Proof.Machine

/-- PAR.ENC uses neither generator nor tags, so only LEN is checked (60_exceptions.md R254). -/
theorem exec_parEnc (s : State) {n : Nat} (hn : n ≤ 64) :
    exec (.parEnc n) s = .next (s.coded (parityCode (s.input n)) (framesParity (s.input n)) .ok) :=
  congrArg _ (command_accept _ _ _ (check_coder rfl rfl hn (by simp [State.usesGen])))

theorem exec_parVal (s : State) {n : Nat} (hn : n ≤ 64) :
    exec (.parVal n) s
      = .next (s.coded [] (framesParity (s.input n)) (validation (framesParity (s.input n)))) :=
  congrArg _ (command_accept _ _ _ (check_coder rfl rfl hn (by simp [State.usesGen])))

theorem coded_rem_framesParity (s : State) (out bs : List Byte) (res : Result) :
    (s.coded out (framesParity bs) res).rem.toNat = framesParity bs :=
  coded_rem_toNat s out res ((framesParity_lt bs).trans (by decide))

/-- Settles O33: the output is the parity code, one byte. -/
theorem parEncWritesTheParity : Obligations.ParEncWritesTheParity := fun s n hn =>
  have hcode : (parityCode (s.input n)).length ≤ 256 := by simp [parityCode]
  ⟨_, exec_parEnc s hn, outputIs_coded s _ _ hcode, coded_rem_framesParity s _ _ _, reports_coded s _ _ _,
    coded_frame s _ _ _⟩

/-- Settles O34: no output, and the validation of the parity. -/
theorem parValReportsTheParity : Obligations.ParValReportsTheParity := fun s _ hn =>
  ⟨_, exec_parVal s hn, rfl, coded_rem_framesParity s _ _ _, reports_coded s _ _ _, coded_frame s _ _ _⟩

end Sys2Proof.Machine
end

