-- ==== Sys2Proof/Proofs/CrcCodedSequence.lean ====
section
/-! PROOF. The division step is linear, so the code bits cancel the remainder they spell, and a payload followed by its
code divides without remainder (40_crc.md R112, R115, R120). -/

namespace Sys2Proof.Machine

/-! ### Linearity of the division step -/

theorem two_mul_add_xor (A B : Nat) (a b : Bool) :
    2 * (A ^^^ B) + (a ^^ b).toNat = (2 * A + a.toNat) ^^^ (2 * B + b.toNat) := by
  refine Nat.eq_of_testBit_eq fun i => ?_
  cases i <;> simp only [Nat.testBit_xor, testBit_two_mul_add]

/-- The generator is subtracted from the XOR of two registers exactly when it is subtracted from just one of them. -/
theorem ite_xor_eq (G : Nat) (p q : Bool) :
    (if (p ^^ q) = true then G else 0) = (if p = true then G else 0) ^^^ (if q = true then G else 0) := by
  cases p <;> cases q <;> simp

/-- Shifting a bit in is linear, and so is the subtraction (40_crc.md R112). -/
theorem divStep_xor {G A B : Nat} (a b : Bool) (hA : A < 2 ^ degree G) (hB : B < 2 ^ degree G) :
    divStep G (A ^^^ B) (a ^^ b) = divStep G A a ^^^ divStep G B b := by
  rw [divStep_eq _ (Nat.xor_lt_two_pow hA hB), divStep_eq a hA, divStep_eq b hB, two_mul_add_xor, Nat.testBit_xor,
    ite_xor_eq]
  ac_rfl

/-- Nothing is subtracted from a register that stays below 2^d. -/
theorem divStep_of_lt {G R : Nat} {b : Bool} (h : 2 * R + b.toNat < 2 ^ degree G) :
    divStep G R b = 2 * R + b.toNat := by
  rw [divStep_eq b (by omega), Nat.testBit_lt_two_pow h]
  simp

/-! ### Bits behind a sequence -/

/-- Bits that spell a number below 2^d enter the division as if they were zeros, XORed into its result. -/
theorem divBits_append_of_bitsValue_lt {G : Nat} (hG : 1 ≤ G) (bits : List Bool) {c : List Bool}
    (hc : bitsValue c < 2 ^ degree G) :
    divBits G (bits ++ c) = divBits G (bits ++ List.replicate c.length false) ^^^ bitsValue c := by
  induction c using List.reverseRecOn with
  | nil => simp [bitsValue]
  | append_singleton c b ih =>
    rw [bitsValue_concat] at hc
    have hlt : bitsValue c < 2 ^ degree G := by omega
    have hstep := divStep_xor false b (divBits_lt hG (bits ++ List.replicate c.length false)) hlt
    rw [List.length_append, List.length_singleton, List.replicate_succ', ← List.append_assoc, ← List.append_assoc,
      divBits_concat, divBits_concat, ih hlt, bitsValue_concat, ← divStep_of_lt hc, ← hstep, Bool.false_xor]

/-- Zero bits leave a zero remainder as it is. -/
theorem divBits_append_zeros {G : Nat} {bits : List Bool} (h : divBits G bits = 0) (k : Nat) :
    divBits G (bits ++ List.replicate k false) = 0 := by
  induction k with
  | zero => simpa using h
  | succ k ih =>
    rw [List.replicate_succ', ← List.append_assoc, divBits_concat, ih, divStep_of_lt (by simp)]
    rfl

/-- A sequence that spells a multiple of 2^k ends in k zero bits behind the bits of the quotient. -/
theorem exists_bits_of_bitsValue_eq {d k r : Nat} {bits : List Bool} (hlen : bits.length = d + k)
    (hval : bitsValue bits = r * 2 ^ k) :
    ∃ c, bits = c ++ List.replicate k false ∧ c.length = d ∧ bitsValue c = r := by
  induction k generalizing bits with
  | zero => exact ⟨bits, by simp, hlen, by simpa using hval⟩
  | succ k ih =>
    obtain ⟨init, b, rfl⟩ := (List.eq_nil_or_concat' bits).resolve_left (by rintro rfl; simp at hlen)
    rw [bitsValue_concat, Nat.pow_succ, ← Nat.mul_assoc] at hval
    rw [List.length_append, List.length_singleton] at hlen
    obtain rfl : b = false := by
      cases b with
      | false => rfl
      | true => rw [Bool.toNat_true] at hval; omega
    rw [Bool.toNat_false] at hval
    obtain ⟨c, rfl, hc⟩ := ih (bits := init) (by omega) (by omega)
    exact ⟨c, by rw [List.replicate_succ', List.append_assoc], hc⟩

/-! ### The coded sequence -/

theorem bitsOf_append (bs cs : List Byte) : bitsOf (bs ++ cs) = bitsOf bs ++ bitsOf cs := List.flatMap_append

/-- The first d bits of the code spell the remainder and cancel it, and the unused bits behind them are zero (40_crc.md
R115, R120). -/
theorem crcRemainder_append_code {G : Nat} (hG : 1 ≤ G) (P : List Byte) :
    crcRemainder G (P ++ (crcEncode G P).2) = 0 := by
  have hlen : (bitsOf (crcEncode G P).2).length = degree G + (8 * crcLen G - degree G) := by
    rw [length_bitsOf, crcEncode, length_codeBytes, Nat.add_sub_cancel' (degree_le_bits G)]
  have hval : bitsValue (bitsOf (crcEncode G P).2) = crcRem G P * 2 ^ (8 * crcLen G - degree G) := by
    rw [bitsValue_bitsOf, bytesValue_crcEncode hG]
  obtain ⟨c, hbits, hc, hcval⟩ := exists_bits_of_bitsValue_eq hlen hval
  have hcancel : divBits G (bitsOf P ++ c) = 0 := by
    rw [divBits_append_of_bitsValue_lt hG _ (hcval ▸ crcRem_lt hG P), hc, hcval, crcRem, Nat.xor_self]
  rw [crcRemainder, bitsOf_append, hbits, ← List.append_assoc]
  exact divBits_append_zeros hcancel _

end Sys2Proof.Machine
end

