-- ==== Sys2Proof/Proofs/StuffBuild.lean ====
section
/-! PROOF. STUFF and BUILD as coder commands: the stuffed sequence byte by byte, the active scheme's code, and what both
commands leave behind (42_stuff_build.md R161 to R167, 44_control.md R221). -/

namespace Sys2Proof.Machine

/-! ### STUFF -/

theorem isTag_iff (s : State) (b : Byte) : s.isTag b = true ↔ b = s.tagStart ∨ b = s.tagStop ∨ b = s.tagEsc := by
  simp [State.isTag, or_assoc]

/-- Each byte is written by itself: behind an ESC if it is a tag, as it is otherwise (42_stuff_build.md R161). -/
theorem stuffed_eq_flatMap (s : State) (bs : List Byte) :
    s.stuffed bs = bs.flatMap fun b =>
      if b = s.tagStart ∨ b = s.tagStop ∨ b = s.tagEsc then [s.tagEsc, b] else [b] := by
  induction bs with
  | nil => rfl
  | cons b bs ih =>
    rw [State.stuffed, List.flatMap_cons, ← ih]
    simp only [isTag_iff]
    split <;> rfl

/-- A coder command that writes REM's own value leaves REM as it is. -/
theorem coded_rem_self (s : State) (out : List Byte) (res : Result) :
    s.coded out s.rem.toNat res = (s.setOutput out).accept res := by
  simp [State.coded, State.setRem, State.setOutput, State.accept]

/-- STUFF uses no generator, so LEN and the tags are checked (60_exceptions.md R254). -/
theorem check_stuff {s : State} {n : Nat} (hn : n ≤ 64)
    (htags : s.tagStart ≠ s.tagStop ∧ s.tagStart ≠ s.tagEsc ∧ s.tagStop ≠ s.tagEsc) :
    s.commandCheck (.stuff n) = .none :=
  (commandCheck_none_iff s _).mpr
    ⟨by simpa [lenTooLong] using hn, by simp [State.usesGen], fun _ => (tagsOk_iff s).mpr htags⟩

theorem exec_stuff {s : State} {n : Nat} (hn : n ≤ 64)
    (htags : s.tagStart ≠ s.tagStop ∧ s.tagStart ≠ s.tagEsc ∧ s.tagStop ≠ s.tagEsc) :
    exec (.stuff n) s = .next (s.coded (s.stuffed (s.input n)) s.rem.toNat .ok) := by
  rw [coded_rem_self]
  exact congrArg _ (command_accept _ _ _ (check_stuff hn htags))

/-- Settles O38: the output is the stuffed input, at most 128 bytes, and REM is given its own value. -/
theorem stuffWritesTheEscapedBytes : Obligations.StuffWritesTheEscapedBytes := by
  intro s n hn htags
  have hout := length_stuffed_le s (s.input n)
  rw [length_input] at hout
  refine ⟨_, exec_stuff hn htags, ?_, BitVec.ofNat_toNat 32 s.rem, reports_coded s _ _ _, coded_frame s _ _ _⟩
  rw [← stuffed_eq_flatMap]
  exact outputIs_coded s _ _ (by omega)

/-- Settles O39: the length is a sum with the count of the tags, which is at most the count of the bytes. -/
theorem stuffedLengthCountsTheTags : Obligations.StuffedLengthCountsTheTags := by
  intro s bs
  have hlen := length_stuffed s bs
  exact ⟨hlen, by omega, length_stuffed_le s bs⟩

/-! ### BUILD -/

theorem schemeEncode_of_crc {s : State} (h : s.scheme = .crc) (P : List Byte) :
    s.schemeEncode P = crcEncode s.G P := by
  rw [State.schemeEncode, h]

theorem schemeEncode_of_parity {s : State} (h : s.scheme = .parity) (P : List Byte) :
    s.schemeEncode P = (framesParity P, parityCode P) := by
  rw [State.schemeEncode, h]

/-- The value BUILD writes to REM fits it: a remainder under a legal generator, or a parity (42_stuff_build.md R163). -/
theorem schemeEncode_lt {s : State} (hc : FrameConfigOk s) (P : List Byte) : (s.schemeEncode P).1 < 2 ^ 32 := by
  cases h : s.scheme with
  | crc => rw [schemeEncode_of_crc h]; exact divBits_lt_two_pow_32 (hc.2 h) _
  | parity => rw [schemeEncode_of_parity h]; exact (framesParity_lt P).trans (by decide)

theorem exec_build {s : State} {n : Nat} (hn : n ≤ 64) (hc : FrameConfigOk s) :
    exec (.build n) s = .next (s.coded (s.wireFrame (s.input n)) (s.schemeEncode (s.input n)).1 .ok) :=
  congrArg _ (command_accept _ _ _ (check_build hn hc))

/-- The frame of an accepted payload is at most 138 bytes (42_stuff_build.md R168). -/
theorem length_wireFrame_input_le (s : State) {n : Nat} (hn : n ≤ 64) : (s.wireFrame (s.input n)).length ≤ 138 := by
  have hframe := length_wireFrame_le s (s.input n)
  rw [length_input] at hframe
  omega

/-- Settles O40: the output is the wire frame, whose code and REM value are those of the active scheme. -/
theorem buildWritesTheWireFrame : Obligations.BuildWritesTheWireFrame := by
  intro s n hn hc
  have hfits := length_wireFrame_input_le s hn
  have hout := outputIs_coded s (out := s.wireFrame (s.input n)) (s.schemeEncode (s.input n)).1 .ok (by omega)
  have hrem := coded_rem_toNat s (s.wireFrame (s.input n)) .ok (schemeEncode_lt hc (s.input n))
  refine ⟨_, exec_build hn hc, ?_, reports_coded s _ _ _, coded_frame s _ _ _⟩
  cases h : s.scheme with
  | crc => rw [State.wireFrame, schemeEncode_of_crc h] at hout hrem ⊢; exact ⟨hout, hrem⟩
  | parity => rw [State.wireFrame, schemeEncode_of_parity h] at hout hrem ⊢; exact ⟨hout, hrem⟩

end Sys2Proof.Machine
end

