-- ==== Sys2Proof/Proofs/FrameRoundTrip.lean ====
section
/-! PROOF. The decoder undoes the builder: a wire body is staged as the bytes it stands for, the staged payload and code
validate, and so BUILD, pushing its bytes and DECODE return the payload (43_decoder.md R185, R188, R195). -/

namespace Sys2Proof.Machine

/-! ### Decoding a wire frame -/

/-- Phase 2 stages the byte each piece of a wire body stands for (43_decoder.md R185). -/
theorem accumulate_wirePieces (s : State) {ps : List Piece} (hps : ∀ p ∈ ps, s.IsBody p) (st : Nat) (g : List Byte)
    (j : Nat) (rest : List Byte) :
    s.accumulate st g j (s.wirePieces ps ++ rest)
      = s.accumulate st (g ++ ps.map Piece.byte) (j + (s.wirePieces ps).length) rest := by
  induction ps generalizing g j with
  | nil => simp
  | cons p ps ih =>
    obtain ⟨hp, htail⟩ := List.forall_mem_cons.mp hps
    cases p with
    | plain b =>
      obtain ⟨hstart, hstop, hesc⟩ := hp
      rw [wirePieces_plain, List.cons_append, accumulate_other s _ _ _ _ _ hesc hstop hstart, ih htail]
      simp only [List.map_cons, piece_byte_plain, List.append_assoc, List.singleton_append, List.length_cons]
      congr 1
      omega
    | escaped b =>
      rw [wirePieces_escaped, List.cons_append, List.cons_append, accumulate_esc, ih htail]
      simp only [List.map_cons, piece_byte_escaped, List.append_assoc, List.singleton_append, List.length_cons]
      congr 1
      omega

/-- A call on a stuffed body between START and STOP judges the body and removes all of it. -/
theorem decodeStep_stuffed {s : State} (hstop : s.tagStop ≠ s.tagEsc) (body : List Byte) :
    s.decodeStep ([s.tagStart] ++ s.stuffed body ++ [s.tagStop])
      = (s.validateBody body, (s.stuffed body).length + 2) := by
  have hphase2 : s.accumulate 0 [] 1 (s.stuffed body ++ [s.tagStop])
      = .closed ((s.stuffed body).length + 2) body := by
    rw [stuffed_eq_wirePieces, accumulate_wirePieces s (stuffPieces_isBody s body), stuffPieces_bytes, List.nil_append,
      accumulate_stop s _ _ _ _ hstop]
    congr 1
    omega
  rw [List.singleton_append, List.cons_append, State.decodeStep, seekStart_start]
  simp only [Nat.zero_add, hphase2]

/-- The code of either scheme has at least one byte. -/
theorem codeLen_pos {s : State} (hc : FrameConfigOk s) : 0 < s.codeLen := by
  unfold State.codeLen
  cases h : s.scheme with
  | crc =>
    have hdeg := degree_pos (hc.2 h)
    simp only [crcLen]
    omega
  | parity => simp

/-- A payload followed by its code validates under either scheme (40_crc.md R120, 41_parity.md R144). -/
theorem schemeValidate_append_code {s : State} (hc : FrameConfigOk s) (P : List Byte) :
    s.schemeValidate (P ++ (s.schemeEncode P).2) = 0 := by
  unfold State.schemeValidate
  cases h : s.scheme with
  | crc => rw [schemeEncode_of_crc h]; exact crcRemainder_append_code (Nat.le_of_succ_le (hc.2 h)) P
  | parity =>
    obtain ⟨-, -, heven⟩ := parityCodedSequenceIsEven P
    rw [schemeEncode_of_parity h]
    exact heven

/-- A staged payload with its code passes every check of phase 3 (43_decoder.md R187, R188). -/
theorem validateBody_append_code {s : State} (hc : FrameConfigOk s) (P : List Byte) :
    s.validateBody (P ++ (s.schemeEncode P).2) = .frame P 0 := by
  have hpos := codeLen_pos hc
  have hlen : (P ++ (s.schemeEncode P).2).length = P.length + s.codeLen := by
    rw [List.length_append, length_schemeEncode]
  unfold State.validateBody
  rw [schemeValidate_append_code hc, hlen, if_neg (by omega), if_neg (by omega), if_neg (by simp),
    Nat.add_sub_cancel, List.take_left]

theorem decodeStep_wireFrame {s : State} (hc : FrameConfigOk s) (P : List Byte) :
    s.decodeStep (s.wireFrame P) = (.frame P 0, (s.wireFrame P).length) := by
  have ⟨⟨_, _, hstop⟩, _⟩ := hc
  rw [State.wireFrame, decodeStep_stuffed hstop, validateBody_append_code hc]
  simp

/-! ### Pushing the bytes of an output -/

/-- Bytes the queue has room for are appended in order (43_decoder.md R181). -/
theorem execAll_rxpush {s : State} {bs : List Byte} (h : s.rxq.length + bs.length ≤ Config.rxqDepth) :
    execAll (bs.map .rxpush) s = some { s with rxq := s.rxq ++ bs } := by
  induction bs generalizing s with
  | nil => simp [execAll]
  | cons b bs ih =>
    rw [List.length_cons] at h
    have hpush : exec (.rxpush b) s = .next { s with rxq := s.rxq ++ [b] } :=
      congrArg _ (push_of_lt s b (by omega))
    rw [List.map_cons, execAll, hpush]
    simp only
    rw [ih (by simp only [List.length_append, List.length_singleton]; omega)]
    simp

/-! ### The round trip -/

theorem frameConfigOk_of_sameConfig {s t : State} (h : SameConfig s t) (hc : FrameConfigOk s) : FrameConfigOk t := by
  obtain ⟨hscheme, hgen, hstart, hstop, hesc⟩ := h
  simpa only [FrameConfigOk, State.G, hscheme, hgen, hstart, hstop, hesc] using hc

/-- The builder reads the configuration and the payload alone. -/
theorem wireFrame_of_sameConfig {s t : State} (h : SameConfig s t) (P : List Byte) : t.wireFrame P = s.wireFrame P := by
  obtain ⟨hscheme, hgen, hstart, hstop, hesc⟩ := h
  simp only [State.wireFrame, stuffed_eq_flatMap, State.schemeEncode, State.G, hscheme, hgen, hstart, hstop, hesc]

/-- What the round trip needs of an accepted BUILD: the bytes of OBUF[0..OLEN) are the wire frame, and configuration and
queue stay. -/
theorem exists_exec_build {s : State} {n : Nat} (hn : n ≤ 64) (hc : FrameConfigOk s) :
    ∃ t, exec (.build n) s = .next t ∧ SameConfig s t ∧ t.rxq = s.rxq ∧ t.olen = (s.wireFrame (s.input n)).length
      ∧ t.obuf.readBytes 0x200 t.olen = s.wireFrame (s.input n) := by
  obtain ⟨hconfig, ⟨hrxq, -, -⟩, -⟩ := coded_frame s (s.wireFrame (s.input n)) (s.schemeEncode (s.input n)).1 .ok
  exact ⟨_, exec_build hn hc, hconfig, hrxq, rfl, readBytes_fresh s.draws Config.obufBase _⟩

theorem exec_decode {s : State} (hc : FrameConfigOk s) :
    exec .decode s = .next (s.settle (s.decodeStep s.rxq).1 (s.decodeStep s.rxq).2) :=
  congrArg _ (command_accept _ _ _ (check_decode hc))

/-- DECODE on a queue that holds exactly the wire frame of a payload delivers it and empties the queue. -/
theorem exec_decode_wireFrame {s : State} {P : List Byte} (hc : FrameConfigOk s) (hP : P.length ≤ 256)
    (hq : s.rxq = s.wireFrame P) :
    ∃ t, exec .decode s = .next t ∧ Reports t .frame ∧ OutputIs t P ∧ t.consumed = (s.wireFrame P).length
      ∧ t.rxq = [] := by
  have hexec := exec_decode hc
  rw [hq, decodeStep_wireFrame hc] at hexec
  refine ⟨_, hexec, ⟨rfl, rfl⟩, outputIs_of_fresh (d := s.draws) hP rfl rfl, rfl, ?_⟩
  show s.rxq.drop (s.wireFrame P).length = []
  rw [hq, List.drop_length]

/-- Settles O52: the frame fits the queue, no push changes the configuration, and the decoder undoes the builder. -/
theorem buildThenDecodeReturnsThePayload : Obligations.BuildThenDecodeReturnsThePayload := by
  intro s n hn hc hempty
  obtain ⟨t, hbuild, hconfig, hrxq, holen, hbytes⟩ := exists_exec_build hn hc
  have hroom : t.rxq.length + (s.wireFrame (s.input n)).length ≤ Config.rxqDepth := by
    rw [hrxq, hempty, List.length_nil, Nat.zero_add]
    exact (length_wireFrame_input_le s hn).trans rxqDepth_bounds.1
  have hpushed : SameConfig s { t with rxq := t.rxq ++ s.wireFrame (s.input n) } := hconfig
  obtain ⟨v, hdecode, hreports, hout, hconsumed, hleft⟩ :=
    exec_decode_wireFrame (P := s.input n) (frameConfigOk_of_sameConfig hpushed hc) (by rw [length_input]; omega)
      (by rw [wireFrame_of_sameConfig hpushed, hrxq, hempty, List.nil_append])
  rw [wireFrame_of_sameConfig hpushed, ← holen] at hconsumed
  exact ⟨t, _, v, hbuild, hbytes.symm ▸ execAll_rxpush hroom, hdecode, hreports, hout, hconsumed, hleft⟩

end Sys2Proof.Machine
end

