-- ==== Sys2Proof/Proofs/DecoderScan.lean ====
section
/-! PROOF. A decoder call in two parts: a scan of the queue for its last candidate, which ignores all but the tags, and
the judgement of what was found. How the scan passes garbage, escapes, wire bodies and spurious STARTs (43_decoder.md
R184 to R188). -/

namespace Sys2Proof.Machine

/-! ### The scan and its judgement -/

/-- The answer of a scan of a queue that stands behind `d` other bytes. -/
def Accum.shift (d : Nat) : Accum → Accum
  | .incomplete k => .incomplete (k + d)
  | .closed k staged => .closed (k + d) staged

/-- Phases 1 and 2 of a decoder call: where the removal ends, and the staged body when a STOP closed the candidate. -/
def State.scan (s : State) (Q : List Byte) : Accum :=
  match s.seekStart 0 Q with
  | .exhausted k => .incomplete k
  | .found i q => s.accumulate i [] (i + 1) q

/-- What a decoder call makes of the answer of its scan: NOFRAME, or phase 3 on the staged body. -/
def State.judge (s : State) : Accum → DecodeOutcome × Nat
  | .incomplete k => (.noFrame, k)
  | .closed k staged => (s.validateBody staged, k)

theorem decodeStep_eq_judge_scan (s : State) (Q : List Byte) : s.decodeStep Q = s.judge (s.scan Q) := by
  unfold State.decodeStep State.scan
  cases s.seekStart 0 Q with
  | exhausted k => rfl
  | found i q => rfl

@[simp] theorem accum_shift_zero (a : Accum) : a.shift 0 = a := by cases a <;> rfl

theorem accum_shift_shift (a : Accum) (d e : Nat) : (a.shift d).shift e = a.shift (d + e) := by
  cases a <;> simp [Accum.shift, Nat.add_assoc]

theorem judge_shift (s : State) (a : Accum) (d : Nat) : s.judge (a.shift d) = ((s.judge a).1, (s.judge a).2 + d) := by
  cases a <;> rfl

/-- A queue whose scan is another's behind `d` more bytes is decoded as that one, with `d` more bytes removed. -/
theorem decodeStep_of_scan_shift {s : State} {Q Q' : List Byte} {d : Nat} (h : s.scan Q = (s.scan Q').shift d) :
    s.decodeStep Q = ((s.decodeStep Q').1, (s.decodeStep Q').2 + d) := by
  rw [decodeStep_eq_judge_scan, h, judge_shift, decodeStep_eq_judge_scan]

/-! ### Phase 1: garbage -/

theorem accumulate_eq_shift (s : State) (q : List Byte) (i d : Nat) :
    s.accumulate (i + d) [] (i + d + 1) q = (s.accumulate i [] (i + 1) q).shift d := by
  rw [Nat.add_right_comm, accumulate_shift]
  cases s.accumulate i [] (i + 1) q <;> rfl

/-- Phase 1 that goes on at index `d` goes on as the scan of what is left. -/
theorem scan_of_seekStart {s : State} {Q Q' : List Byte} {d : Nat} (h : s.seekStart 0 Q = s.seekStart d Q') :
    s.scan Q = (s.scan Q').shift d := by
  unfold State.scan
  rw [h, seekStart_shift s Q' d]
  cases s.seekStart 0 Q' with
  | exhausted k => rfl
  | found i q => exact accumulate_eq_shift s q i d

theorem scan_nil (s : State) : s.scan [] = .incomplete 0 := rfl

theorem scan_esc_nil {s : State} (h : s.tagEsc ≠ s.tagStart) : s.scan [s.tagEsc] = .incomplete 0 := by
  rw [State.scan, seekStart_esc_nil s h]

theorem scan_esc {s : State} (h : s.tagEsc ≠ s.tagStart) (b : Byte) (Q : List Byte) :
    s.scan (s.tagEsc :: b :: Q) = (s.scan Q).shift 2 :=
  scan_of_seekStart (seekStart_esc s h 0 b Q)

theorem scan_other {s : State} {b : Byte} (hstart : b ≠ s.tagStart) (hesc : b ≠ s.tagEsc) (Q : List Byte) :
    s.scan (b :: Q) = (s.scan Q).shift 1 :=
  scan_of_seekStart (seekStart_other s 0 b Q hstart hesc)

/-- Garbage is skipped piece by piece (43_decoder.md R184). -/
theorem scan_garbage {s : State} (h : s.tagEsc ≠ s.tagStart) {g : List Piece} (hg : ∀ p ∈ g, s.IsGarbage p)
    (Q : List Byte) : s.scan (s.wirePieces g ++ Q) = (s.scan Q).shift (s.wirePieces g).length := by
  induction g with
  | nil => simp
  | cons p g ih =>
    obtain ⟨hp, htail⟩ := List.forall_mem_cons.mp hg
    cases p with
    | plain b =>
      obtain ⟨hstart, hesc⟩ := hp
      rw [wirePieces_plain, List.cons_append, scan_other hstart hesc, ih htail, accum_shift_shift, List.length_cons]
    | escaped b =>
      rw [wirePieces_escaped, List.cons_append, List.cons_append, scan_esc h, ih htail, accum_shift_shift,
        List.length_cons, List.length_cons]

/-! ### Phase 2: candidates -/

theorem scan_start (s : State) (q : List Byte) : s.scan (s.tagStart :: q) = s.accumulate 0 [] 1 q := by
  rw [State.scan, seekStart_start]

/-- The scan of a candidate stages its wire body and goes on behind it (43_decoder.md R185). -/
theorem scan_candidate {s : State} {ps : List Piece} (hps : ∀ p ∈ ps, s.IsBody p) (rest : List Byte) :
    s.scan (s.tagStart :: s.wirePieces ps ++ rest)
      = s.accumulate 0 (ps.map Piece.byte) ((s.wirePieces ps).length + 1) rest := by
  rw [List.cons_append, scan_start, accumulate_wirePieces s hps, List.nil_append, Nat.add_comm 1]

theorem scan_closed {s : State} (hstop : s.tagStop ≠ s.tagEsc) {ps : List Piece} (hps : ∀ p ∈ ps, s.IsBody p)
    (rest : List Byte) :
    s.scan (s.tagStart :: s.wirePieces ps ++ s.tagStop :: rest)
      = .closed ((s.wirePieces ps).length + 2) (ps.map Piece.byte) := by
  rw [scan_candidate hps, accumulate_stop s _ _ _ _ hstop]

/-- An open candidate stays, with a trailing ESC in its body or not (43_decoder.md R185). -/
theorem scan_open {s : State} {ps : List Piece} (hps : ∀ p ∈ ps, s.IsBody p) {tail : List Byte}
    (htail : tail = [] ∨ tail = [s.tagEsc]) : s.scan (s.tagStart :: s.wirePieces ps ++ tail) = .incomplete 0 := by
  rw [scan_candidate hps]
  rcases htail with rfl | rfl
  · exact accumulate_nil s _ _ _
  · exact accumulate_esc_nil s _ _ _

/-- A START in a wire body drops the candidate before it (43_decoder.md R186). -/
theorem scan_restart {s : State} (hesc : s.tagStart ≠ s.tagEsc) (hstop : s.tagStart ≠ s.tagStop) {ps : List Piece}
    (hps : ∀ p ∈ ps, s.IsBody p) (Q : List Byte) :
    s.scan (s.tagStart :: s.wirePieces ps ++ s.tagStart :: Q)
      = (s.scan (s.tagStart :: Q)).shift ((s.wirePieces ps).length + 1) := by
  rw [scan_candidate hps, accumulate_start s _ _ _ _ hesc hstop, scan_start, ← accumulate_eq_shift]
  simp only [Nat.zero_add]

/-! ### The obligations about one candidate -/

/-- Settles O42: a stuffed body is a wire body, and behind a wire body stands the STOP that closes it. -/
theorem stuffedBodyIsRecoveredExactly : Obligations.StuffedBodyIsRecoveredExactly := by
  intro s rest start j ⟨_, _, hstop⟩
  have hwire : ∀ ps : List Piece, (∀ p ∈ ps, s.IsBody p) →
      s.accumulate start [] j (s.wirePieces ps ++ s.tagStop :: rest)
        = .closed (j + (s.wirePieces ps).length + 1) (ps.map Piece.byte) := by
    intro ps hps
    rw [accumulate_wirePieces s hps, accumulate_stop s _ _ _ _ hstop, List.nil_append]
  refine ⟨fun body => ?_, hwire⟩
  have hbody := hwire (s.stuffPieces body) (stuffPieces_isBody s body)
  rwa [← stuffed_eq_wirePieces, stuffPieces_bytes] at hbody

/-- The remainder a FRAME outcome carries is 0, for the body has validated (43_decoder.md R188). -/
theorem validateBody_eq (s : State) (staged : List Byte) :
    s.validateBody staged
      = if staged.length = 0 then .emptyFrame
        else if staged.length < s.codeLen then .corruptedDelimiter
        else if s.schemeValidate staged ≠ 0 then .integrityCheckFailed (s.schemeValidate staged)
        else .frame (staged.take (staged.length - s.codeLen)) 0 := by
  unfold State.validateBody
  by_cases hvalid : s.schemeValidate staged = 0 <;> simp [hvalid]

/-- Settles O45: the scan closes the candidate at the STOP, and phase 3 judges what it staged. -/
theorem decoderJudgesTheStagedBody : Obligations.DecoderJudgesTheStagedBody := by
  intro s ps body rest ⟨_, _, hstop⟩ hps hbody
  rw [decodeStep_eq_judge_scan, scan_closed hstop hps, ← hbody, ← validateBody_eq]
  rfl

/-- Settles O46: each byte of garbage, and each ESC with the byte behind it, is one step of phase 1. -/
theorem garbageIsSkippedWithItsEscapes : Obligations.GarbageIsSkippedWithItsEscapes := by
  intro s g Q b
  refine ⟨fun hg => ?_, fun hesc => ⟨decodeStep_of_scan_shift (scan_esc hesc b Q), ?_⟩⟩
  · induction g with
    | nil => rfl
    | cons c g ih =>
      obtain ⟨⟨hstart, hesc⟩, htail⟩ := List.forall_mem_cons.mp hg
      rw [List.cons_append, decodeStep_of_scan_shift (scan_other hstart hesc _), ih htail, Nat.add_assoc,
        List.length_cons]
  · rw [decodeStep_eq_judge_scan, scan_esc_nil hesc]
    rfl

/-- Settles O47: the scan goes on at the new START. -/
theorem spuriousStartRestartsTheCandidate : Obligations.SpuriousStartRestartsTheCandidate := by
  intro s ps Q ⟨hstop, hesc, _⟩ hps
  rw [decodeStep_of_scan_shift (scan_restart hesc hstop hps Q), Nat.add_assoc]

end Sys2Proof.Machine
end

