-- ==== Sys2Proof/Proofs/QueueForms.lean ====
section
/-! PROOF. The forms of a receive queue under distinct tags: garbage, candidates cut short, and a last candidate that is
open or closed. Every queue has one, the scan answers by the form alone, and the form tells where the removal of a call
ends (43_decoder.md R184 to R186, R190, R193). -/

namespace Sys2Proof.Machine

/-- TAGS_OK as a proposition: no byte is two tags (10_state.md R29). -/
abbrev State.DistinctTags (s : State) : Prop :=
  s.tagStart ≠ s.tagStop ∧ s.tagStart ≠ s.tagEsc ∧ s.tagStop ≠ s.tagEsc

/-! ### What lies before the last candidate -/

theorem beforeCandidate_cons (s : State) (c : List Piece) (cs : List (List Piece)) (Q : List Byte) :
    s.beforeCandidate [] (c :: cs) ++ Q = s.tagStart :: s.wirePieces c ++ (s.beforeCandidate [] cs ++ Q) := by
  simp [State.beforeCandidate]

theorem beforeCandidate_eq (s : State) (g : List Piece) (cs : List (List Piece)) :
    s.beforeCandidate g cs = s.wirePieces g ++ s.beforeCandidate [] cs := by
  simp [State.beforeCandidate]

/-- Candidates cut short by the START of the next begin with a START, if there is one. -/
theorem exists_start_beforeCandidate (s : State) (cs : List (List Piece)) (Q : List Byte) :
    ∃ Q', s.beforeCandidate [] cs ++ s.tagStart :: Q = s.tagStart :: Q' := by
  cases cs with
  | nil => exact ⟨Q, rfl⟩
  | cons c cs => exact ⟨_, beforeCandidate_cons s c cs _⟩

/-- The scan passes each candidate that the START of the next cuts short (43_decoder.md R186). -/
theorem scan_cutShort {s : State} (htags : s.DistinctTags) {cs : List (List Piece)}
    (hcs : ∀ c ∈ cs, ∀ p ∈ c, s.IsBody p) (Q : List Byte) :
    s.scan (s.beforeCandidate [] cs ++ s.tagStart :: Q)
      = (s.scan (s.tagStart :: Q)).shift (s.beforeCandidate [] cs).length := by
  induction cs with
  | nil => exact (accum_shift_zero _).symm
  | cons c cs ih =>
    obtain ⟨hc, htail⟩ := List.forall_mem_cons.mp hcs
    obtain ⟨hstop, hesc, -⟩ := htags
    obtain ⟨Q', hQ'⟩ := exists_start_beforeCandidate s cs Q
    have hlen := congrArg List.length (beforeCandidate_cons s c cs [])
    rw [beforeCandidate_cons, hQ', scan_restart hesc hstop hc, ← hQ', ih htail, accum_shift_shift]
    congr 1
    simp only [List.append_nil, List.length_append, List.length_cons] at hlen
    omega

/-- The scan passes everything before the last candidate (43_decoder.md R184, R186). -/
theorem scan_beforeCandidate {s : State} (htags : s.DistinctTags) {g : List Piece} (hg : ∀ p ∈ g, s.IsGarbage p)
    {cs : List (List Piece)} (hcs : ∀ c ∈ cs, ∀ p ∈ c, s.IsBody p) (Q : List Byte) :
    s.scan (s.beforeCandidate g cs ++ s.tagStart :: Q)
      = (s.scan (s.tagStart :: Q)).shift (s.beforeCandidate g cs).length := by
  have ⟨_, hesc, _⟩ := htags
  rw [beforeCandidate_eq s g cs, List.append_assoc, scan_garbage hesc.symm hg, scan_cutShort htags hcs,
    accum_shift_shift, List.length_append, Nat.add_comm]

/-! ### The forms -/

/-- The forms of a queue, each with the answer of its scan. -/
inductive State.QueueForm (s : State) : List Byte → Accum → Prop where
  /-- No candidate: garbage and perhaps a trailing ESC (43_decoder.md R184). -/
  | garbage (g : List Piece) (tail : List Byte) (hg : ∀ p ∈ g, s.IsGarbage p) (htail : tail = [] ∨ tail = [s.tagEsc]) :
      QueueForm s (s.wirePieces g ++ tail) (.incomplete (s.wirePieces g).length)
  /-- An open candidate, perhaps with a trailing ESC (43_decoder.md R185). -/
  | opened (g : List Piece) (cs : List (List Piece)) (ps : List Piece) (tail : List Byte)
      (hg : ∀ p ∈ g, s.IsGarbage p) (hcs : ∀ c ∈ cs, ∀ p ∈ c, s.IsBody p) (hps : ∀ p ∈ ps, s.IsBody p)
      (htail : tail = [] ∨ tail = [s.tagEsc]) :
      QueueForm s (s.beforeCandidate g cs ++ (s.tagStart :: s.wirePieces ps ++ tail))
        (.incomplete (s.beforeCandidate g cs).length)
  /-- A candidate closed by the first STOP behind it (43_decoder.md R185). -/
  | closed (g : List Piece) (cs : List (List Piece)) (ps : List Piece) (rest : List Byte)
      (hg : ∀ p ∈ g, s.IsGarbage p) (hcs : ∀ c ∈ cs, ∀ p ∈ c, s.IsBody p) (hps : ∀ p ∈ ps, s.IsBody p) :
      QueueForm s (s.beforeCandidate g cs ++ (s.tagStart :: s.wirePieces ps ++ s.tagStop :: rest))
        (.closed ((s.beforeCandidate g cs).length + (s.wirePieces ps).length + 2) (ps.map Piece.byte))

theorem scan_queueForm {s : State} (htags : s.DistinctTags) {Q : List Byte} {a : Accum} (h : s.QueueForm Q a) :
    s.scan Q = a := by
  have ⟨_, hesc, hstop⟩ := htags
  cases h with
  | garbage g tail hg htail =>
    have hrest : s.scan tail = .incomplete 0 := by
      rcases htail with rfl | rfl
      · exact scan_nil s
      · exact scan_esc_nil hesc.symm
    rw [scan_garbage hesc.symm hg, hrest, Accum.shift, Nat.zero_add]
  | opened g cs ps tail hg hcs hps htail =>
    have hrest := scan_open hps htail
    rw [List.cons_append] at hrest ⊢
    rw [scan_beforeCandidate htags hg hcs, hrest, Accum.shift, Nat.zero_add]
  | closed g cs ps rest hg hcs hps =>
    have hrest := scan_closed hstop hps rest
    rw [List.cons_append] at hrest ⊢
    rw [scan_beforeCandidate htags hg hcs, hrest, Accum.shift]
    congr 1
    omega

/-! ### Every queue has a form -/

/-- Phase 1 takes a queue apart into garbage and what stops it (43_decoder.md R184). -/
theorem exists_garbage (s : State) (Q : List Byte) : ∃ g t, (∀ p ∈ g, s.IsGarbage p) ∧ Q = s.wirePieces g ++ t
    ∧ (t = [] ∨ t = [s.tagEsc] ∨ ∃ q, t = s.tagStart :: q) := by
  induction Q using seekStart_induct s with
  | nil => exact ⟨[], [], by simp, rfl, .inl rfl⟩
  | start q => exact ⟨[], _, by simp, rfl, .inr (.inr ⟨q, rfl⟩)⟩
  | escNil => exact ⟨[], _, by simp, rfl, .inr (.inl rfl)⟩
  | esc _ c q ih =>
    obtain ⟨g, t, hg, rfl, ht⟩ := ih
    exact ⟨.escaped c :: g, t, List.forall_mem_cons.mpr ⟨trivial, hg⟩, rfl, ht⟩
  | other b q hstart hesc ih =>
    obtain ⟨g, t, hg, rfl, ht⟩ := ih
    exact ⟨.plain b :: g, t, List.forall_mem_cons.mpr ⟨⟨hstart, hesc⟩, hg⟩, rfl, ht⟩

/-- Phase 2 takes the bytes behind a START apart into a wire body and what stops it (43_decoder.md R185, R186). -/
theorem exists_body (s : State) (q : List Byte) : ∃ ps t, (∀ p ∈ ps, s.IsBody p) ∧ q = s.wirePieces ps ++ t
    ∧ ((t = [] ∨ t = [s.tagEsc]) ∨ (∃ rest, t = s.tagStop :: rest) ∨ ∃ q', t = s.tagStart :: q') := by
  induction q using accumulate_induct s with
  | nil => exact ⟨[], [], by simp, rfl, .inl (.inl rfl)⟩
  | escNil => exact ⟨[], _, by simp, rfl, .inl (.inr rfl)⟩
  | esc c q ih =>
    obtain ⟨ps, t, hps, rfl, ht⟩ := ih
    exact ⟨.escaped c :: ps, t, List.forall_mem_cons.mpr ⟨trivial, hps⟩, rfl, ht⟩
  | stop _ rest => exact ⟨[], _, by simp, rfl, .inr (.inl ⟨rest, rfl⟩)⟩
  | start _ _ q _ => exact ⟨[], _, by simp, rfl, .inr (.inr ⟨q, rfl⟩)⟩
  | other b q hesc hstop hstart ih =>
    obtain ⟨ps, t, hps, rfl, ht⟩ := ih
    exact ⟨.plain b :: ps, t, List.forall_mem_cons.mpr ⟨⟨hstart, hstop, hesc⟩, hps⟩, rfl, ht⟩

/-- A queue that begins with START: candidates cut short, then a last one and what ends it. -/
theorem exists_candidates (s : State) (q : List Byte) :
    ∃ cs ps t, (∀ c ∈ cs, ∀ p ∈ c, s.IsBody p) ∧ (∀ p ∈ ps, s.IsBody p)
      ∧ s.tagStart :: q = s.beforeCandidate [] cs ++ (s.tagStart :: s.wirePieces ps ++ t)
      ∧ ((t = [] ∨ t = [s.tagEsc]) ∨ ∃ rest, t = s.tagStop :: rest) := by
  obtain ⟨ps, t, hps, hq, hopen | hclosed | ⟨q', ht⟩⟩ := exists_body s q
  · exact ⟨[], ps, t, by simp, hps, congrArg _ hq, .inl hopen⟩
  · exact ⟨[], ps, t, by simp, hps, congrArg _ hq, .inr hclosed⟩
  · have hshorter : q'.length < q.length := by
      have := congrArg List.length hq
      simp only [ht, List.length_append, List.length_cons] at this
      omega
    obtain ⟨cs, ps', t', hcs, hps', hq', ht'⟩ := exists_candidates s q'
    refine ⟨ps :: cs, ps', t', List.forall_mem_cons.mpr ⟨hps, hcs⟩, hps', ?_, ht'⟩
    rw [beforeCandidate_cons, ← hq', hq, ht, List.cons_append]
termination_by q.length

theorem exists_queueForm (s : State) (Q : List Byte) : ∃ a, s.QueueForm Q a := by
  obtain ⟨g, t, hg, rfl, hnil | hesc | ⟨q, rfl⟩⟩ := exists_garbage s Q
  · exact ⟨_, .garbage g t hg (.inl hnil)⟩
  · exact ⟨_, .garbage g t hg (.inr hesc)⟩
  · obtain ⟨cs, ps, t, hcs, hps, hq, hopen | ⟨rest, rfl⟩⟩ := exists_candidates s q
    · rw [hq, ← List.append_assoc, ← beforeCandidate_eq]
      exact ⟨_, .opened g cs ps t hg hcs hps hopen⟩
    · rw [hq, ← List.append_assoc, ← beforeCandidate_eq]
      exact ⟨_, .closed g cs ps rest hg hcs hps⟩

/-- With distinct tags every queue has the form its scan answers for. -/
theorem queueForm_scan {s : State} (htags : s.DistinctTags) (Q : List Byte) : s.QueueForm Q (s.scan Q) := by
  obtain ⟨a, ha⟩ := exists_queueForm s Q
  rwa [scan_queueForm htags ha]

/-! ### Where the removal ends -/

/-- Where a scan can end, whatever the tags are. -/
theorem scan_spec (s : State) (Q : List Byte) : match s.scan Q with
    | .incomplete k => k = Q.length ∨ Q[k]? = some s.tagStart ∨ (Q[k]? = some s.tagEsc ∧ k + 1 = Q.length)
    | .closed k _ => 2 ≤ k ∧ k ≤ Q.length ∧ Q[k - 1]? = some s.tagStop := by
  unfold State.scan
  have hseek := seekStart_spec s Q
  cases hQ : s.seekStart 0 Q with
  | exhausted k =>
    rw [hQ] at hseek
    rcases hseek with hend | ⟨hlen, hesc⟩
    · exact .inl hend
    · exact .inr (.inr ⟨hesc, hlen⟩)
  | found i q =>
    rw [hQ] at hseek
    obtain ⟨hdrop, hlen⟩ := hseek
    have hstart : Q[i]? = some s.tagStart := by rw [← List.head?_drop, hdrop, List.head?_cons]
    have hacc := accumulate_spec s Q q i [] (i + 1) (by rw [← List.drop_drop, hdrop]; rfl) (by omega) (by omega)
      hstart (by simp)
    simp only
    cases ha : s.accumulate i [] (i + 1) q with
    | incomplete k =>
      rw [ha] at hacc
      exact .inr (.inl hacc.2)
    | closed k staged =>
      rw [ha] at hacc
      obtain ⟨-, hle, hstop, hstaged⟩ := hacc
      exact ⟨by omega, hle, hstop⟩

theorem decodeStep_removal (s : State) (Q : List Byte) :
    if (s.decodeStep Q).1 = .noFrame then
      (s.decodeStep Q).2 = Q.length ∨ Q[(s.decodeStep Q).2]? = some s.tagStart
        ∨ (Q[(s.decodeStep Q).2]? = some s.tagEsc ∧ (s.decodeStep Q).2 + 1 = Q.length)
    else 2 ≤ (s.decodeStep Q).2 ∧ Q[(s.decodeStep Q).2 - 1]? = some s.tagStop := by
  have hspec := scan_spec s Q
  rw [decodeStep_eq_judge_scan]
  cases hQ : s.scan Q with
  | incomplete k =>
    rw [hQ] at hspec
    simpa only [State.judge, if_pos] using hspec
  | closed k staged =>
    rw [hQ] at hspec
    obtain ⟨htwo, -, hstop⟩ := hspec
    simpa [State.judge, validateBody_ne_noFrame s staged] using And.intro htwo hstop

/-- Settles O48: the scan's answer places the removal, and with distinct tags the queue has the form of that answer. -/
theorem removalEndsAfterStopOrBeforeTheCandidate : Obligations.RemovalEndsAfterStopOrBeforeTheCandidate := by
  intro s Q
  refine ⟨decodeStep_removal s Q, fun htags => ?_, fun _ ps hps => ?_⟩
  · have hform := queueForm_scan htags Q
    rw [decodeStep_eq_judge_scan]
    generalize s.scan Q = a at hform
    cases hform with
    | garbage g tail hg htail => exact ⟨g, tail, hg, .inl ⟨rfl, htail, rfl⟩⟩
    | opened g cs ps tail hg hcs hps htail =>
      exact ⟨g, tail, hg, .inr ⟨cs, ps, hcs, hps, (List.append_assoc _ _ _).symm, .inl ⟨htail, rfl⟩⟩⟩
    | closed g cs ps rest hg hcs hps =>
      exact ⟨g, _, hg, .inr ⟨cs, ps, hcs, hps, (List.append_assoc _ _ _).symm, .inr ⟨rest, rfl, rfl⟩⟩⟩
  · have hopen : ∀ tail, tail = [] ∨ tail = [s.tagEsc] →
        s.decodeStep (s.tagStart :: s.wirePieces ps ++ tail) = (.noFrame, 0) := by
      intro tail htail
      rw [decodeStep_eq_judge_scan, scan_open hps htail]
      rfl
    exact ⟨by simpa using hopen [] (.inl rfl), hopen _ (.inr rfl)⟩

/-! ### Delivered payloads -/

/-- A FRAME outcome says that every check of phase 3 has passed (43_decoder.md R187, R188). -/
theorem validateBody_eq_frame {s : State} {staged P : List Byte} {r : Nat} (h : s.validateBody staged = .frame P r) :
    staged ≠ [] ∧ s.codeLen ≤ staged.length ∧ s.schemeValidate staged = 0 ∧ r = 0
      ∧ P = staged.take (staged.length - s.codeLen) := by
  rw [validateBody_eq] at h
  split_ifs at h with hempty hshort hvalid
  cases h
  exact ⟨fun hnil => hempty (by simp [hnil]), by omega, by simpa using hvalid, rfl, rfl⟩

/-- A FRAME outcome comes from a candidate that phase 2 closed. -/
theorem exists_closed_of_frame {s : State} {Q P : List Byte} {r k : Nat} (h : s.decodeStep Q = (.frame P r, k)) :
    ∃ i q staged, s.seekStart 0 Q = .found i q ∧ s.accumulate i [] (i + 1) q = .closed k staged
      ∧ s.scan Q = .closed k staged ∧ s.validateBody staged = .frame P r := by
  rw [decodeStep_eq_judge_scan] at h
  cases hseek : s.seekStart 0 Q with
  | exhausted i => simp [State.scan, hseek, State.judge] at h
  | found i q =>
    have hscan : s.scan Q = s.accumulate i [] (i + 1) q := by rw [State.scan, hseek]
    rw [hscan] at h ⊢
    cases hacc : s.accumulate i [] (i + 1) q with
    | incomplete i' => simp [hacc, State.judge] at h
    | closed k' staged =>
      rw [hacc] at h
      obtain ⟨hbody, rfl⟩ := Prod.mk.inj h
      exact ⟨i, q, staged, rfl, hacc, rfl, hbody⟩

/-- A closed scan has staged the wire body of the last candidate of what it removes. -/
theorem exists_wire_of_closed {s : State} (htags : s.DistinctTags) {Q staged : List Byte} {k : Nat}
    (h : s.scan Q = .closed k staged) :
    ∃ (g : List Piece) (cs : List (List Piece)) (ps : List Piece),
      (∀ p ∈ g, s.IsGarbage p) ∧ (∀ c ∈ cs, ∀ p ∈ c, s.IsBody p) ∧ (∀ p ∈ ps, s.IsBody p)
        ∧ Q.take k = s.beforeCandidate g cs ++ s.tagStart :: s.wirePieces ps ++ [s.tagStop]
        ∧ staged = ps.map Piece.byte := by
  have hform := queueForm_scan htags Q
  rw [h] at hform
  cases hform with
  | closed g cs ps rest hg hcs hps =>
    refine ⟨g, cs, ps, hg, hcs, hps, ?_, rfl⟩
    rw [← List.append_assoc, List.append_cons _ s.tagStop, List.take_left']
    simp only [List.length_append, List.length_cons, List.length_nil]
    omega

/-- Settles O49: phase 3 answers FRAME only for a validated body, and the form of the queue tells its wire body. -/
theorem deliveredPayloadIsValidated : Obligations.DeliveredPayloadIsValidated := by
  intro s Q P r k h
  obtain ⟨i, q, staged, hseek, hacc, hscan, hbody⟩ := exists_closed_of_frame h
  obtain ⟨hne, hlen, hvalid, hr, hP⟩ := validateBody_eq_frame hbody
  exact ⟨i, q, staged, hseek, hacc, hne, hlen, hvalid, hr, hP, fun htags => exists_wire_of_closed htags hscan⟩

end Sys2Proof.Machine
end

