-- ==== Sys2Proof/Proofs/DecodeCommand.lean ====
section
/-! PROOF. DECODE as a command: what it writes on each outcome, that it reads the queue and the configuration alone, and
how it stalls on a full queue; then RXPUSH, RXFLUSH and the steps that are no bus access (43_decoder.md R181, R182, R189,
R191, R194; 70_reset_and_hazards.md R288). -/

namespace Sys2Proof.Machine

/-! ### What a decoder call leaves -/

@[simp] theorem settle_rxq (s : State) (o : DecodeOutcome) (k : Nat) : (s.settle o k).rxq = s.rxq.drop k := by
  simp [State.settle]

@[simp] theorem settle_consumed (s : State) (o : DecodeOutcome) (k : Nat) : (s.settle o k).consumed = k := by
  simp [State.settle]

@[simp] theorem settle_result (s : State) (o : DecodeOutcome) (k : Nat) : (s.settle o k).result = o.result := rfl

@[simp] theorem settle_errcode (s : State) (o : DecodeOutcome) (k : Nat) : (s.settle o k).errcode = .none := rfl

@[simp] theorem settle_olen (s : State) (o : DecodeOutcome) (k : Nat) : (s.settle o k).olen = o.payload.length := by
  simp [State.settle]

@[simp] theorem settle_obuf (s : State) (o : DecodeOutcome) (k : Nat) :
    (s.settle o k).obuf = Memory.fresh s.draws Config.obufBase o.payload := by
  simp [State.settle]

/-- REM takes the value the outcome carries and keeps its own when there is none (43_decoder.md R189). -/
theorem settle_rem (s : State) (o : DecodeOutcome) (k : Nat) :
    (s.settle o k).rem = match o.rem? with
      | none => s.rem
      | some r => BitVec.ofNat 32 r := by
  cases o <;> rfl

/-- DECODE touches neither the configuration nor RX_OVF nor the agents nor IBUF (44_control.md R221). -/
theorem settle_frame (s : State) (o : DecodeOutcome) (k : Nat) :
    SameConfig s (s.settle o k) ∧ (s.settle o k).rxOvf = s.rxOvf ∧ SameAgents s (s.settle o k)
      ∧ SameMemoryButObuf s (s.settle o k) :=
  ⟨by simp [SameConfig, State.settle], by simp [State.settle], by simp [SameAgents, State.settle],
    sameMemoryButObuf_of_ibuf (by simp [State.settle])⟩

/-- OBUF[0..OLEN) holds the payload, of which there is none but on FRAME. -/
theorem readBytes_settle (s : State) (o : DecodeOutcome) (k : Nat) :
    (s.settle o k).obuf.readBytes Config.obufBase (s.settle o k).olen = o.payload := by
  rw [settle_obuf, settle_olen, readBytes_fresh]

theorem exec_decode_scan {s : State} (hc : FrameConfigOk s) :
    exec .decode s = .next (s.settle (s.judge (s.scan s.rxq)).1 (s.judge (s.scan s.rxq)).2) := by
  rw [exec_decode hc, decodeStep_eq_judge_scan]

/-! ### The values REM can take -/

theorem schemeValidate_lt {s : State} (hc : FrameConfigOk s) (M : List Byte) : s.schemeValidate M < 2 ^ 32 := by
  unfold State.schemeValidate
  cases h : s.scheme with
  | crc => exact divBits_lt_two_pow_32 (hc.2 h) _
  | parity => exact (framesParity_lt M).trans (by decide)

/-- A remainder or parity an outcome carries fits REM (43_decoder.md R188). -/
theorem decodeStep_rem_lt {s : State} (hc : FrameConfigOk s) {Q : List Byte} {r : Nat}
    (h : (s.decodeStep Q).1.rem? = some r) : r < 2 ^ 32 := by
  rw [decodeStep_eq_judge_scan] at h
  cases hQ : s.scan Q with
  | incomplete k => simp [hQ, State.judge, DecodeOutcome.rem?] at h
  | closed k staged =>
    have hlt := schemeValidate_lt hc staged
    simp only [hQ, State.judge, State.validateBody] at h
    split_ifs at h <;> simp only [DecodeOutcome.rem?, Option.some.injEq, reduceCtorEq] at h <;> omega

theorem settle_rem_toNat (s : State) {o : DecodeOutcome} (k : Nat) {r : Nat} (h : o.rem? = some r) (hr : r < 2 ^ 32) :
    (s.settle o k).rem.toNat = r := by
  rw [settle_rem, h]
  exact (BitVec.toNat_ofNat r 32).trans (Nat.mod_eq_of_lt hr)

/-- Settles O44: the payload fits OBUF, the carried value fits REM, and the effect writes nothing else. -/
theorem decodePerformsOneDecoderCall : Obligations.DecodePerformsOneDecoderCall := by
  intro s hc hqueue
  have hpayload : (s.decodeStep s.rxq).1.payload.length ≤ 256 :=
    (length_payload_decodeStep s s.rxq).trans (hqueue.trans rxqDepth_bounds.2)
  have hrem : ∀ r, (s.decodeStep s.rxq).1.rem? = some r → r < 2 ^ 32 := fun _ => decodeStep_rem_lt hc
  refine ⟨_, exec_decode hc, decodeStep_le s s.rxq, settle_rxq s _ _, settle_consumed s _ _, ?_, settle_frame s _ _⟩
  cases ho : (s.decodeStep s.rxq).1 with
  | noFrame => exact ⟨⟨rfl, rfl⟩, rfl, rfl⟩
  | emptyFrame => exact ⟨⟨rfl, rfl⟩, rfl, rfl⟩
  | corruptedDelimiter => exact ⟨⟨rfl, rfl⟩, rfl, rfl⟩
  | integrityCheckFailed r => exact ⟨⟨rfl, rfl⟩, rfl, settle_rem_toNat s _ rfl (hrem r (by rw [ho]; rfl))⟩
  | frame P r =>
    rw [ho] at hpayload
    exact ⟨⟨rfl, rfl⟩, outputIs_of_fresh (d := s.draws) hpayload rfl rfl,
      settle_rem_toNat s _ rfl (hrem r (by rw [ho]; rfl))⟩

/-! ### The queue and the configuration alone -/

theorem seekStart_of_sameConfig {s t : State} (h : SameConfig s t) (Q : List Byte) :
    ∀ i, t.seekStart i Q = s.seekStart i Q := by
  obtain ⟨-, -, hstart, -, hesc⟩ := h
  induction Q using seekStart_induct s with
  | nil => intro i; rw [seekStart_nil, seekStart_nil]
  | start q => intro i; rw [seekStart_start, ← hstart, seekStart_start]
  | escNil hne => intro i; rw [seekStart_esc_nil s hne, ← hesc, seekStart_esc_nil t (by rwa [hesc, hstart])]
  | esc hne c q ih =>
    intro i
    rw [seekStart_esc s hne, ← hesc, seekStart_esc t (by rwa [hesc, hstart]), ih]
  | other b q hb hb' ih =>
    intro i
    rw [seekStart_other s i b q hb hb', seekStart_other t i b q (by rwa [hstart]) (by rwa [hesc]), ih]

theorem accumulate_of_sameConfig {s t : State} (h : SameConfig s t) (q : List Byte) :
    ∀ st g j, t.accumulate st g j q = s.accumulate st g j q := by
  obtain ⟨-, -, hstart, hstop, hesc⟩ := h
  induction q using accumulate_induct s with
  | nil => intro st g j; rw [accumulate_nil, accumulate_nil]
  | escNil => intro st g j; rw [accumulate_esc_nil, ← hesc, accumulate_esc_nil]
  | esc c q ih => intro st g j; rw [accumulate_esc, ← hesc, accumulate_esc, ih]
  | stop hne q =>
    intro st g j
    rw [accumulate_stop s st g j q hne, ← hstop, accumulate_stop t st g j q (by rwa [hstop, hesc])]
  | start hne hne' q ih =>
    intro st g j
    rw [accumulate_start s st g j q hne hne', ← hstart,
      accumulate_start t st g j q (by rwa [hstart, hesc]) (by rwa [hstart, hstop]), ih]
  | other b q hne hne' hne'' ih =>
    intro st g j
    rw [accumulate_other s st g j b q hne hne' hne'',
      accumulate_other t st g j b q (by rwa [hesc]) (by rwa [hstop]) (by rwa [hstart]), ih]

theorem codeLen_of_sameConfig {s t : State} (h : SameConfig s t) : t.codeLen = s.codeLen := by
  obtain ⟨hscheme, hgen, -⟩ := h
  rw [State.codeLen, State.codeLen, hscheme, State.G, State.G, hgen]

theorem schemeValidate_of_sameConfig {s t : State} (h : SameConfig s t) (M : List Byte) :
    t.schemeValidate M = s.schemeValidate M := by
  obtain ⟨hscheme, hgen, -⟩ := h
  rw [State.schemeValidate, State.schemeValidate, hscheme, State.G, State.G, hgen]

theorem validateBody_of_sameConfig {s t : State} (h : SameConfig s t) (staged : List Byte) :
    t.validateBody staged = s.validateBody staged := by
  simp only [State.validateBody, codeLen_of_sameConfig h, schemeValidate_of_sameConfig h]

/-- A decoder call is a function of the queue and the configuration (43_decoder.md R183). -/
theorem decodeStep_of_sameConfig {s t : State} (h : SameConfig s t) (Q : List Byte) :
    t.decodeStep Q = s.decodeStep Q := by
  simp only [State.decodeStep, seekStart_of_sameConfig h, accumulate_of_sameConfig h, validateBody_of_sameConfig h]

/-- FRAME and INTEGRITY_CHECK_FAILED are the outcomes that carry a value for REM (43_decoder.md R189). -/
theorem exists_rem_of_result {o : DecodeOutcome} (h : o.result = .frame ∨ o.result = .integrityCheckFailed) :
    ∃ r, o.rem? = some r := by
  cases o with
  | noFrame => simp [DecodeOutcome.result] at h
  | emptyFrame => simp [DecodeOutcome.result] at h
  | corruptedDelimiter => simp [DecodeOutcome.result] at h
  | integrityCheckFailed r => exact ⟨r, rfl⟩
  | frame P r => exact ⟨r, rfl⟩

/-- Settles O50: both states settle the same outcome and the same removal. -/
theorem decodeDependsOnQueueAndConfigurationAlone : Obligations.DecodeDependsOnQueueAndConfigurationAlone := by
  intro s t h hqueue hc
  have hexec := exec_decode (frameConfigOk_of_sameConfig h hc)
  rw [decodeStep_of_sameConfig h, hqueue] at hexec
  refine ⟨_, _, exec_decode hc, hexec, rfl, rfl, by simp, by simp [hqueue], by simp, ?_, fun hresult => ?_⟩
  · exact (readBytes_settle t _ _).trans (readBytes_settle s _ _).symm
  · obtain ⟨r, hr⟩ := exists_rem_of_result hresult
    rw [settle_rem, settle_rem, hr]

/-! ### A full queue -/

/-- Settles O53: the scan keeps the open candidate from its START on, and a full queue has no room. -/
theorem fullQueueWithAnOpenCandidateStalls : Obligations.FullQueueWithAnOpenCandidateStalls := by
  intro s ps tail hc hps htail hqueue hfull
  constructor
  · have hexec := exec_decode hc
    rw [decodeStep_eq_judge_scan, hqueue, scan_open hps htail] at hexec
    exact ⟨_, hexec, ⟨rfl, rfl⟩, settle_consumed s _ _, settle_rxq s _ _⟩
  · intro b
    exact ⟨s.push b, rfl, by rw [push_of_no_room hfull.ge], by rw [push_of_no_room hfull.ge]⟩

/-! ### RXPUSH, RXFLUSH and the steps that are no bus access -/

/-- Settles O43: the two branches of a push. -/
theorem pushAppendsOrDropsWithOverflow : Obligations.PushAppendsOrDropsWithOverflow := by
  intro s b
  split
  · next hroom => exact congrArg _ (push_of_lt s b hroom)
  · next hfull => exact congrArg _ (push_of_full s b hfull)

/-- Settles O54: all of the queue is consumed. -/
theorem rxflushEmptiesTheQueue : Obligations.RxflushEmptiesTheQueue := by
  intro s
  show Host.Outcome.next ((s.consume s.rxq.length).accept .ok) = _
  rw [State.consume, List.drop_length, State.accept]

theorem step_idle {s : State} (h : s.inputs = []) : step s = .next s := by
  simp only [step, State.fetch, h]

/-- Settles O9: a push and the reset input are taken as their operations, and with nothing pending none is taken. -/
theorem stepsThatAreNoBusAccess : Obligations.StepsThatAreNoBusAccess :=
  ⟨fun _ _ _ => rfl, fun _ _ => rfl, fun _ => step_idle⟩

end Sys2Proof.Machine
end

