-- ==== Sys2Proof/Proofs/IncrementalFeeding.lean ====
section
/-! PROOF. Decoding early is harmless: a scan that finds no closed candidate goes on, once more bytes are there, at the
bytes it has kept, and a closed candidate stays closed. So draining the queue after each pushed byte delivers what
draining it once at the end does (43_decoder.md R192). -/

namespace Sys2Proof.Machine

/-! ### Bytes pushed behind a queue -/

theorem le_length_of_scan_incomplete {s : State} {Q : List Byte} {k : Nat} (h : s.scan Q = .incomplete k) :
    k ≤ Q.length := by
  have hle := decodeStep_le s Q
  rwa [decodeStep_eq_judge_scan, h] at hle

theorem le_length_of_scan_closed {s : State} {Q staged : List Byte} {k : Nat} (h : s.scan Q = .closed k staged) :
    2 ≤ k ∧ k ≤ Q.length := by
  have hspec := scan_spec s Q
  rw [h] at hspec
  obtain ⟨htwo, hle, -⟩ := hspec
  exact ⟨htwo, hle⟩

/-- A closed candidate is the same whatever stands behind its STOP. -/
theorem scan_append_of_closed {s : State} (htags : s.DistinctTags) {Q staged : List Byte} {k : Nat}
    (h : s.scan Q = .closed k staged) (bs : List Byte) : s.scan (Q ++ bs) = .closed k staged := by
  have hform := queueForm_scan htags Q
  rw [h] at hform
  cases hform with
  | closed g cs ps rest hg hcs hps =>
    have hlonger := scan_queueForm htags (.closed g cs ps (rest ++ bs) hg hcs hps)
    rwa [← List.cons_append, ← List.append_assoc (_ :: _), ← List.append_assoc (s.beforeCandidate g cs)] at hlonger

/-- A scan without a closed candidate goes on, with more bytes, at the bytes it keeps. -/
theorem scan_append_of_incomplete {s : State} (htags : s.DistinctTags) {Q : List Byte} {k : Nat}
    (h : s.scan Q = .incomplete k) (bs : List Byte) : s.scan (Q ++ bs) = (s.scan (Q.drop k ++ bs)).shift k := by
  have ⟨_, hesc, _⟩ := htags
  have hform := queueForm_scan htags Q
  rw [h] at hform
  cases hform with
  | garbage g tail hg htail => rw [List.drop_left, List.append_assoc, scan_garbage hesc.symm hg]
  | opened g cs ps tail hg hcs hps htail =>
    rw [List.drop_left, List.append_assoc, List.cons_append, List.cons_append, scan_beforeCandidate htags hg hcs]

/-! ### Draining a queue -/

/-- What the Host sees of a call that closed a candidate with this staged body. -/
def State.delivery (s : State) (staged : List Byte) : Delivery :=
  ((s.validateBody staged).result, (s.validateBody staged).payload)

/-- Calls from a queue up to the first NOFRAME: what they deliver, and the queue they leave. -/
inductive State.Drains (s : State) : List Byte → List Delivery → List Byte → Prop where
  | noFrame {Q : List Byte} {k : Nat} (h : s.scan Q = .incomplete k) : Drains s Q [] (Q.drop k)
  | deliver {Q staged : List Byte} {k : Nat} {ds : List Delivery} {R : List Byte} (h : s.scan Q = .closed k staged)
      (hrest : Drains s (Q.drop k) ds R) : Drains s Q (s.delivery staged :: ds) R

theorem drains_unique {s : State} {Q R R' : List Byte} {ds ds' : List Delivery} (h : s.Drains Q ds R)
    (h' : s.Drains Q ds' R') : ds = ds' := by
  induction h generalizing ds' with
  | noFrame hopen =>
    cases h' with
    | noFrame => rfl
    | deliver hclosed _ => simp [hopen] at hclosed
  | deliver hclosed _ ih =>
    cases h' with
    | noFrame hopen => simp [hopen] at hclosed
    | deliver hclosed' hrest' =>
      obtain ⟨rfl, rfl⟩ := Accum.closed.inj (hclosed.symm.trans hclosed')
      rw [ih hrest']

theorem length_le_of_drains {s : State} {Q R : List Byte} {ds : List Delivery} (h : s.Drains Q ds R) :
    R.length ≤ Q.length := by
  induction h with
  | noFrame => exact (List.drop_sublist ..).length_le
  | deliver _ _ ih => exact ih.trans (List.drop_sublist ..).length_le

/-- Garbage in front of a queue is all that its drain removes in addition. -/
theorem drains_of_scan_shift {s : State} {Q : List Byte} {ds : List Delivery} {R : List Byte} {k : Nat}
    (hscan : s.scan Q = (s.scan (Q.drop k)).shift k) (h : s.Drains (Q.drop k) ds R) : s.Drains Q ds R := by
  cases h with
  | noFrame hopen =>
    rw [hopen] at hscan
    rw [List.drop_drop, Nat.add_comm]
    exact .noFrame hscan
  | deliver hclosed hrest =>
    rw [hclosed] at hscan
    rw [List.drop_drop, Nat.add_comm] at hrest
    exact .deliver hscan hrest

/-- Draining before more bytes come delivers the beginning of what draining all of them does. -/
theorem drains_append {s : State} (htags : s.DistinctTags) {Q R R' bs : List Byte} {ds ds' : List Delivery}
    (h : s.Drains Q ds R) (h' : s.Drains (R ++ bs) ds' R') : s.Drains (Q ++ bs) (ds ++ ds') R' := by
  induction h with
  | noFrame hopen =>
    have hscan := scan_append_of_incomplete htags hopen bs
    rw [← List.drop_append_of_le_length (le_length_of_scan_incomplete hopen)] at hscan h'
    exact drains_of_scan_shift hscan h'
  | deliver hclosed _ ih =>
    have hrest := ih h'
    rw [← List.drop_append_of_le_length (le_length_of_scan_closed hclosed).2] at hrest
    exact .deliver (scan_append_of_closed htags hclosed bs) hrest

/-- The queue a drain leaves is at rest: draining it again delivers and removes nothing. -/
theorem drains_rest {s : State} (htags : s.DistinctTags) {Q R : List Byte} {ds : List Delivery}
    (h : s.Drains Q ds R) : s.Drains R [] R := by
  induction h with
  | @noFrame Q k hopen =>
    have hscan := scan_append_of_incomplete htags hopen []
    rw [List.append_nil, List.append_nil, hopen] at hscan
    cases hkept : s.scan (Q.drop k) with
    | incomplete k' =>
      rw [hkept] at hscan
      obtain rfl : k' = 0 := by simpa [Accum.shift] using hscan
      exact .noFrame hkept
    | closed k' staged => simp [hkept, Accum.shift] at hscan
  | deliver _ _ ih => exact ih

/-! ### The Host's drain -/

theorem sameConfig_trans {s t u : State} (h : SameConfig s t) (h' : SameConfig t u) : SameConfig s u := by
  obtain ⟨hscheme, hgen, hstart, hstop, hesc⟩ := h
  obtain ⟨hscheme', hgen', hstart', hstop', hesc'⟩ := h'
  exact ⟨hscheme'.trans hscheme, hgen'.trans hgen, hstart'.trans hstart, hstop'.trans hstop, hesc'.trans hesc⟩

theorem sameConfig_push (s : State) (b : Byte) : SameConfig s (s.push b) := by simp [SameConfig]

theorem scan_of_sameConfig {s t : State} (h : SameConfig s t) (Q : List Byte) : t.scan Q = s.scan Q := by
  simp only [State.scan, seekStart_of_sameConfig h, accumulate_of_sameConfig h]

theorem drains_of_sameConfig {s t : State} (h : SameConfig s t) {Q R : List Byte} {ds : List Delivery}
    (ht : t.Drains Q ds R) : s.Drains Q ds R := by
  induction ht with
  | noFrame hopen => exact .noFrame (scan_of_sameConfig h _ ▸ hopen)
  | deliver hclosed _ ih =>
    rw [State.delivery, validateBody_of_sameConfig h]
    exact .deliver (scan_of_sameConfig h _ ▸ hclosed) ih

theorem drain_of_incomplete {s : State} (hc : FrameConfigOk s) {k : Nat} (h : s.scan s.rxq = .incomplete k) (n : Nat) :
    drain (n + 1) s = ([], s.settle .noFrame k) := by
  have hexec := exec_decode_scan hc
  rw [h] at hexec
  rw [drain, hexec]
  rfl

theorem result_eq_noFrame_iff (o : DecodeOutcome) : o.result = .noFrame ↔ o = .noFrame := by
  cases o <;> simp [DecodeOutcome.result]

theorem drain_of_closed {s : State} (hc : FrameConfigOk s) {k : Nat} {staged : List Byte}
    (h : s.scan s.rxq = .closed k staged) (n : Nat) :
    drain (n + 1) s = (s.delivery staged :: (drain n (s.settle (s.validateBody staged) k)).1,
      (drain n (s.settle (s.validateBody staged) k)).2) := by
  have hexec := exec_decode_scan hc
  rw [h] at hexec
  rw [drain, hexec]
  simp only [State.judge, settle_result, result_eq_noFrame_iff, validateBody_ne_noFrame, readBytes_settle, if_false]
  rfl

/-- A drain with fuel for every byte of the queue reaches NOFRAME, since every other outcome removes a frame. -/
theorem drains_drain {s : State} (hc : FrameConfigOk s) {n : Nat} (hn : s.rxq.length < n) :
    s.Drains s.rxq (drain n s).1 (drain n s).2.rxq ∧ SameConfig s (drain n s).2 := by
  induction n generalizing s with
  | zero => omega
  | succ n ih =>
    cases h : s.scan s.rxq with
    | incomplete k =>
      have ⟨hconfig, _⟩ := settle_frame s .noFrame k
      rw [drain_of_incomplete hc h, settle_rxq]
      exact ⟨.noFrame h, hconfig⟩
    | closed k staged =>
      have ⟨hconfig, _⟩ := settle_frame s (s.validateBody staged) k
      have hshorter : (s.settle (s.validateBody staged) k).rxq.length < n := by
        have := le_length_of_scan_closed h
        rw [settle_rxq, List.length_drop]
        omega
      obtain ⟨hrest, hconfig'⟩ := ih (frameConfigOk_of_sameConfig hconfig hc) hshorter
      rw [settle_rxq] at hrest
      rw [drain_of_closed hc h]
      exact ⟨.deliver h (drains_of_sameConfig hconfig hrest), sameConfig_trans hconfig hconfig'⟩

/-! ### The two ways of feeding -/

theorem execAll_rxpush_eq_foldl (s : State) (bs : List Byte) :
    execAll (bs.map .rxpush) s = some (bs.foldl State.push s) := by
  induction bs generalizing s with
  | nil => rfl
  | cons b bs ih => exact ih (s.push b)

/-- Bytes the queue has room for are all appended. -/
theorem foldl_push {s : State} {bs : List Byte} (h : s.rxq.length + bs.length ≤ Config.rxqDepth) :
    bs.foldl State.push s = { s with rxq := s.rxq ++ bs } :=
  Option.some.inj ((execAll_rxpush_eq_foldl s bs).symm.trans (execAll_rxpush h))

theorem drains_feedWhole {s : State} (hc : FrameConfigOk s) {bs : List Byte}
    (h : s.rxq.length + bs.length ≤ Config.rxqDepth) : ∃ R, s.Drains (s.rxq ++ bs) (feedWhole s bs) R := by
  rw [feedWhole, foldl_push h]
  have hconfig : SameConfig s { s with rxq := s.rxq ++ bs } := ⟨rfl, rfl, rfl, rfl, rfl⟩
  obtain ⟨hdrains, -⟩ := drains_drain (n := s.rxq.length + bs.length + 1) (frameConfigOk_of_sameConfig hconfig hc)
    (by simp only [List.length_append]; omega)
  exact ⟨_, drains_of_sameConfig hconfig hdrains⟩

theorem feedByteByByte_cons (s : State) (b : Byte) (bs : List Byte) :
    feedByteByByte s (b :: bs) = (drain ((s.push b).rxq.length + 1) (s.push b)).1
      ++ feedByteByByte (drain ((s.push b).rxq.length + 1) (s.push b)).2 bs := rfl

/-- Feeding byte by byte, from a queue at rest, is one drain of the whole stream. -/
theorem drains_feedByteByByte {s t : State} {bs : List Byte} (hc : FrameConfigOk s) (hst : SameConfig s t)
    (h : t.rxq.length + bs.length ≤ Config.rxqDepth) (hrest : s.Drains t.rxq [] t.rxq) :
    ∃ R, s.Drains (t.rxq ++ bs) (feedByteByByte t bs) R := by
  induction bs generalizing t with
  | nil => exact ⟨t.rxq, by simpa [feedByteByByte] using hrest⟩
  | cons b bs ih =>
    rw [List.length_cons] at h
    have hpush : (t.push b).rxq = t.rxq ++ [b] := by rw [push_of_lt t b (by omega)]
    have hconfig := sameConfig_trans hst (sameConfig_push t b)
    obtain ⟨hdrained, hconfig'⟩ := drains_drain (frameConfigOk_of_sameConfig hconfig hc) (Nat.lt_add_one _)
    have hdrains := drains_of_sameConfig hconfig hdrained
    rw [feedByteByByte_cons]
    generalize drain ((t.push b).rxq.length + 1) (t.push b) = du at hdrains hconfig'
    rw [hpush] at hdrains
    have hroom : du.2.rxq.length + bs.length ≤ Config.rxqDepth := by
      have := length_le_of_drains hdrains
      rw [List.length_append, List.length_singleton] at this
      omega
    obtain ⟨R, hR⟩ := ih (sameConfig_trans hconfig hconfig') hroom (drains_rest hc.1 hdrains)
    have hall := drains_append hc.1 hdrains hR
    rw [List.append_assoc] at hall
    exact ⟨R, hall⟩

/-- Settles O51: both ways are a drain of the same stream, and what a drain delivers is unique. -/
theorem feedingByteByByteDeliversTheSameFrames : Obligations.FeedingByteByByteDeliversTheSameFrames := by
  intro s bs hc hempty hfits
  have hroom : s.rxq.length + bs.length ≤ Config.rxqDepth := by rwa [hempty, List.length_nil, Nat.zero_add]
  have hrest : s.Drains s.rxq [] s.rxq := by rw [hempty]; exact .noFrame (scan_nil s)
  obtain ⟨R, hbytes⟩ := drains_feedByteByByte hc ⟨rfl, rfl, rfl, rfl, rfl⟩ hroom hrest
  obtain ⟨R', hwhole⟩ := drains_feedWhole hc hroom
  exact drains_unique hbytes hwhole

end Sys2Proof.Machine
end

