-- ==== Sys2Proof/Proofs/Control.lean ====
section
/-! PROOF. The rules of 44_control.md about commands and configuration as such: what no command touches (R221), NOP and
SRST (R222, R224), the plain writes of STATUS, GEN_LO, GEN_HI and TAGS (R225 to R227), and the step of a Host write that
is an operation (R220). -/

namespace Sys2Proof.Machine

/-! ### What no command changes -/

/-- No effect of a command writes the configuration, the last read value or IBUF. -/
theorem commandEffect_frame {s t : State} (h : CommandEffect s t) :
    SameConfig s t ∧ t.readData = s.readData ∧ t.ibuf = s.ibuf := by
  cases h with
  | rejected e he => simp [SameConfig]
  | nop => simp [SameConfig]
  | coded out r res hout hres => simp [SameConfig]
  | decoded => simp [SameConfig, State.settle]
  | flushed => simp [SameConfig]

/-- Settles O14: a command, accepted or rejected, has one of the effects of `CommandEffect`. -/
theorem noCommandChangesConfigurationOrInput : Obligations.NoCommandChangesConfigurationOrInput := by
  intro i s t hi h
  have heffect : CommandEffect s t := commandEffect_exec hi h
  obtain ⟨hconfig, hread, hibuf⟩ := commandEffect_frame heffect
  exact ⟨hconfig, commandEffect_rxOvf heffect, ⟨commandEffect_inputs heffect, hread⟩, sameMemoryButObuf_of_ibuf hibuf⟩

/-! ### Writes of STATUS and TAGS -/

/-- The byte of a word from bit `k` up, from the word's number. -/
theorem extractLsb'_byte (w : Word) (k : Nat) : w.extractLsb' k 8 = BitVec.ofNat 8 (w.toNat / 2 ^ k) := by
  rw [← Nat.shiftRight_eq_div_pow]
  rfl

theorem writeReg_tags (s : State) (w : Word) :
    s.writeReg w .tags = { s with
      tagStart := BitVec.ofNat 8 w.toNat, tagStop := BitVec.ofNat 8 (w.toNat / 2 ^ 8)
      tagEsc := BitVec.ofNat 8 (w.toNat / 2 ^ 16) } := by
  simp only [State.writeReg, extractLsb'_byte, pow_zero, Nat.div_one]

theorem writeReg_status (s : State) (w : Word) :
    s.writeReg w .status = { s with rxOvf := if w.toNat / 2 ^ 8 % 2 = 1 then false else s.rxOvf } := by
  simp only [State.writeReg, getLsbD_iff]
  split <;> rfl

/-- Settles O57: each of the four words is a plain write of its register, by `step_regWrite`. -/
theorem configurationWritesSetTheirFields : Obligations.ConfigurationWritesSetTheirFields := by
  intro s rest w
  refine ⟨⟨_, step_regWrite s rest .genLo w rfl, rfl, writeReg_genLo_G _ w⟩,
    ⟨_, step_regWrite s rest .genHi w rfl, rfl, writeReg_genHi_G _ w⟩, ?_, ?_⟩
  · exact (step_regWrite s rest .tags w rfl).trans (congrArg _ (writeReg_tags _ w))
  · exact (step_regWrite s rest .status w rfl).trans (congrArg _ (writeReg_status _ w))

/-! ### The step of a Host write that is an operation -/

theorem with_inputs_of_eq {s : State} {l : List Input} (h : s.inputs = l) : { s with inputs := l } = s := by
  rw [← h]

/-- Settles O5, by the equation of a step that takes a Host write. -/
theorem stepRunsTheDecodedOperation : Obligations.StepRunsTheDecodedOperation := by
  intro s off v rest i hin hd
  have hstep := step_hostWrite s rest off v
  rwa [with_inputs_of_eq hin, hd] at hstep

/-! ### SRST and NOP -/

/-- CFGINFO reads the configuration alone, so after any reset it reads as in the state after reset: no generator,
distinct tags, and a code of length 0 (70_reset_and_hazards.md R281). -/
theorem resetAll_cfgInfo (s : State) : s.resetAll.cfgInfo = 0x00020000 :=
  calc s.resetAll.cfgInfo = State.reset.cfgInfo := rfl
    _ = 0x00020000 := by decide

/-- After a reset STATUS shows RX_EMPTY alone: no queue is so short that an empty one is full (10_state.md R24). -/
theorem resetAll_statusWord (s : State) : s.resetAll.statusWord = 0x00000200 := by
  have hdepth : 0 ≠ Config.rxqDepth := by have := rxqDepth_bounds; omega
  refine BitVec.eq_of_toNat_eq ?_
  rw [statusWord_fields]
  simp [hdepth, Result.code, ErrCode.code]

/-- Settles O19: the components by the definition of `State.resetAll`, CFGINFO and STATUS by the two lemmas above. -/
theorem softResetSetsEveryComponent : Obligations.SoftResetSetsEveryComponent := by
  intro s
  exact ⟨s.resetAll, rfl, rfl, rfl, rfl, rfl, rfl, rfl, rfl, rfl, rfl, rfl, rfl, rfl, resetAll_cfgInfo s,
    resetAll_statusWord s, ⟨rfl, rfl⟩⟩

/-- Settles O20: NOP accepts with RESULT = OK, by the definition of `execNop` and `State.accept`. -/
theorem nopReportsSuccessAndNothingElse : Obligations.NopReportsSuccessAndNothingElse := fun _ => rfl

end Sys2Proof.Machine
end

