-- ==== Sys2Proof/Proofs/CommandErrors.lean ====
section
/-! PROOF. Command errors and the absence of traps: the first failing check of R254 is the ERRCODE that a command reports,
and it reports nothing else (60_exceptions.md R253, R254); no step stops the block (R250). -/

namespace Sys2Proof.Machine

/-! ### The block never stops -/

theorem exists_exec (i : Instr) (s : State) : ∃ t, exec i s = .next t := by
  cases i <;> exact ⟨_, rfl⟩

/-- Settles O10: a step ends where fetching completes it, or runs an operation, and every operation answers a state. -/
theorem everyStepAnswersANextState : Obligations.EveryStepAnswersANextState := by
  intro s
  unfold step
  cases s.fetch with
  | run i s' => exact exists_exec i s'
  | done s' => exact ⟨s', rfl⟩

/-! ### The checks in their order -/

/-- Check 3 comes before the others. -/
theorem commandCheck_badLength (s : State) {i : Instr} (hlen : lenTooLong i = true) :
    s.commandCheck i = .badLength := by
  rw [State.commandCheck, if_pos hlen]

/-- Check 4 is reached past check 3 alone, so the tags play no part. -/
theorem commandCheck_badGenerator {s : State} {i : Instr} (hlen : lenTooLong i = false)
    (huses : s.usesGen i = true) (hG : s.G < 2) : s.commandCheck i = .badGenerator := by
  have hgen : s.genOk = false := decide_eq_false hG.not_ge
  simp [State.commandCheck, hlen, huses, hgen]

theorem commandCheck_badTags {s : State} {i : Instr} (hlen : lenTooLong i = false)
    (hG : s.usesGen i = true → 2 ≤ s.G) (huses : usesTags i = true) (htags : s.tagsOk = false) :
    s.commandCheck i = .badTags := by
  have hgen : (s.usesGen i && !s.genOk) = false := by simpa [State.genOk] using hG
  simp [State.commandCheck, hlen, hgen, huses, htags]

theorem tagsOk_eq_false_iff (s : State) :
    s.tagsOk = false ↔ s.tagStart = s.tagStop ∨ s.tagStart = s.tagEsc ∨ s.tagStop = s.tagEsc := by
  rw [← Bool.not_eq_true, tagsOk_iff, not_and_or, not_and_or, not_ne_iff, not_ne_iff, not_ne_iff]

/-! ### Rejected commands -/

/-- An operation whose check fails only writes STATUS (60_exceptions.md R253). The operations that are not checked have
no check that fails. -/
theorem exec_reject {i : Instr} {s : State} {e : ErrCode} (h : s.commandCheck i = e) (he : e ≠ .none) :
    exec i s = .next { s with result := .cmdError, errcode := e } := by
  cases i with
  | nop | rxflush | rxpush _ | srst => exact absurd h.symm he
  | crcEnc _ | crcVal _ | parEnc _ | parVal _ | stuff _ | build _ | decode =>
    exact congrArg _ (command_reject _ _ _ _ h he)

/-- Settles O21: check 3 fails on each of the six commands. -/
theorem overlongLenIsRejectedBeforeAnythingElse : Obligations.OverlongLenIsRejectedBeforeAnythingElse := by
  intro s n hn i hi
  have hlen : i.len? = some n := by fin_cases hi <;> rfl
  exact exec_reject (commandCheck_badLength s (by simpa [lenTooLong_of_len? hlen] using hn)) (by decide)

/-- Settles O22: the LEN passes check 3 and check 4 fails, under the CRC scheme also on BUILD and DECODE. -/
theorem illegalGeneratorIsRejected : Obligations.IllegalGeneratorIsRejected := by
  intro s n hn hG
  have hreject : ∀ i : Instr, lenTooLong i = false → s.usesGen i = true →
      exec i s = .next { s with result := .cmdError, errcode := .badGenerator } :=
    fun i hlen huses => exec_reject (commandCheck_badGenerator hlen huses hG) (by decide)
  have hfits : decide (64 < n) = false := decide_eq_false hn.not_gt
  constructor
  · intro i hi
    fin_cases hi
    · exact hreject (.crcEnc n) hfits rfl
    · exact hreject (.crcVal n) hfits rfl
  · intro hscheme i hi
    have huses : decide (s.scheme = .crc) = true := decide_eq_true hscheme
    fin_cases hi
    · exact hreject (.build n) hfits huses
    · exact hreject .decode rfl huses

/-- Settles O23: STUFF uses no generator, and BUILD and DECODE use one under the CRC scheme alone, so check 4 passes and
check 5 fails. -/
theorem indistinctTagsAreRejected : Obligations.IndistinctTagsAreRejected := by
  intro s n hn htags
  have hreject : ∀ i : Instr, lenTooLong i = false → (s.usesGen i = true → 2 ≤ s.G) → usesTags i = true →
      exec i s = .next { s with result := .cmdError, errcode := .badTags } :=
    fun i hlen hgen huses =>
      exec_reject (commandCheck_badTags hlen hgen huses ((tagsOk_eq_false_iff s).mpr htags)) (by decide)
  have hfits : decide (64 < n) = false := decide_eq_false hn.not_gt
  refine ⟨hreject (.stuff n) hfits (fun h => by cases h) rfl, fun hG i hi => ?_⟩
  have hgen : decide (s.scheme = .crc) = true → 2 ≤ s.G := fun h => hG (of_decide_eq_true h)
  fin_cases hi
  · exact hreject (.build n) hfits hgen rfl
  · exact hreject .decode rfl hgen rfl

end Sys2Proof.Machine
end

section
/-! PROOF. The state after reset: it meets the invariant at any draw of unspecified bytes, and holds the values of
70_reset_and_hazards.md R281. It is a reset of any state up to the draws and the model's own fields, so both follow from
what is known of `State.resetAll`. -/

namespace Sys2Proof.Machine

/-! ### The invariant -/

/-- The invariant reads which cells the buffers list and no number of a draw (assumption log 2). -/
theorem inv_redraw {s : State} (hs : s.Inv) (d d' n : Nat) :
    State.Inv { s with ibuf := { s.ibuf with draw := d }, obuf := { s.obuf with draw := d' }, draws := n } := { hs with }

theorem inv_reset : State.reset.Inv := inv_redraw (inv_resetAll State.reset) 0 0 1

/-- Settles O13: after reset no buffer lists a cell, and another draw changes the draws' numbers alone. -/
theorem resetMeetsTheInvariant : Obligations.ResetMeetsTheInvariant := ⟨inv_reset, inv_redraw inv_reset⟩

/-! ### The values of R281 -/

theorem reset_statusWord : State.reset.statusWord = 0x00000200 :=
  calc State.reset.statusWord = State.reset.resetAll.statusWord := rfl
    _ = 0x00000200 := resetAll_statusWord State.reset

theorem reset_cfgInfo : State.reset.cfgInfo = 0x00020000 :=
  calc State.reset.cfgInfo = State.reset.resetAll.cfgInfo := rfl
    _ = 0x00020000 := resetAll_cfgInfo State.reset

/-- The three tags do not overlap in the word (10_state.md R29). -/
theorem reset_tagsWord : State.reset.tagsWord = 0x005C7D7B := by
  refine BitVec.eq_of_toNat_eq ?_
  rw [tagsWord_toNat]
  rfl

/-- Settles O18: the components by the definition of `State.reset`, the composed registers by the lemmas above. -/
theorem resetStateHoldsTheStatedValues : Obligations.ResetStateHoldsTheStatedValues :=
  ⟨rfl, rfl, rfl, rfl, rfl, rfl, rfl, rfl, rfl, rfl, rfl, rfl, rfl, reset_cfgInfo, reset_statusWord, reset_tagsWord⟩

end Sys2Proof.Machine
end

section
/-! PROOF. One division step on a register below 2^d, and the bound it keeps (40_crc.md R114). -/

namespace Sys2Proof.Machine

/-- A number of at most d + 1 bits is as long as the generator exactly when its bit d is set. -/
theorem bitlen_ge_iff_testBit {x d : Nat} (hx : x < 2 ^ (d + 1)) : bitlen x ≥ d + 1 ↔ x.testBit d = true := by
  rw [ge_iff_le, Nat.succ_le_iff, ← not_le, bitlen_le_iff, not_lt]
  exact ⟨fun hle => Nat.testBit_of_two_pow_le_and_two_pow_add_one_gt hle hx, Nat.ge_two_pow_of_testBit⟩

theorem bitlen_eq_of_testBit {x d : Nat} (hx : x < 2 ^ (d + 1)) (hbit : x.testBit d = true) : bitlen x = d + 1 :=
  le_antisymm ((bitlen_le_iff x (d + 1)).mpr hx) ((bitlen_ge_iff_testBit hx).mpr hbit)

/-- Subtracting the generator clears the set bit d. -/
theorem xor_generator_testBit_degree {G x : Nat} (hG : 1 ≤ G) (hbit : x.testBit (degree G) = true) :
    (x ^^^ G).testBit (degree G) = false := by
  rw [Nat.testBit_xor, hbit, degree_testBit hG, Bool.xor_self]

/-- Settles O26: the shifted register has at most d + 1 bits, and its bit d decides the subtraction. -/
theorem registerStaysBelowTheDegree : Obligations.RegisterStaysBelowTheDegree := by
  refine fun G hG => ⟨fun R b hR => ?_, divBits_lt hG⟩
  have hx : (R <<< 1) ||| b.toNat < 2 ^ (degree G + 1) := by
    rw [shl_or_toNat]
    exact two_mul_add_lt b hR
  exact ⟨hx, bitlen_ge_iff_testBit hx,
    fun hbit => ⟨bitlen_eq_of_testBit hx hbit, xor_generator_testBit_degree hG hbit⟩, divStep_lt b hG hR⟩

end Sys2Proof.Machine
end

section
/-! PROOF. The division of the XOR of two sequences, from the linearity of one step, and the coded sequence without
remainder (40_crc.md R120, R123). -/

namespace Sys2Proof.Machine

/-- Settles O29: the code bits cancel the remainder they spell. -/
theorem codedSequenceIsDivisible : Obligations.CodedSequenceIsDivisible := fun _ P hG =>
  crcRemainder_append_code (Nat.le_of_succ_le hG) P

/-- Two divisions run side by side, from any registers below 2^d. -/
theorem foldl_divStep_zipWith_xor {G : Nat} (hG : 1 ≤ G) {as bs : List Bool} (hlen : as.length = bs.length) {A B : Nat}
    (hA : A < 2 ^ degree G) (hB : B < 2 ^ degree G) :
    (List.zipWith (· ^^ ·) as bs).foldl (divStep G) (A ^^^ B)
      = as.foldl (divStep G) A ^^^ bs.foldl (divStep G) B := by
  induction as generalizing bs A B with
  | nil => rw [List.length_eq_zero_iff.mp hlen.symm]; rfl
  | cons a as ih =>
    obtain ⟨b, bs, rfl⟩ := List.exists_cons_of_length_eq_add_one hlen.symm
    simp only [List.zipWith_cons_cons, List.foldl_cons, divStep_xor a b hA hB]
    exact ih (by simpa using hlen) (divStep_lt a hG hA) (divStep_lt b hG hB)

theorem divBits_zipWith_xor {G : Nat} (hG : 1 ≤ G) {as bs : List Bool} (hlen : as.length = bs.length) :
    divBits G (List.zipWith (· ^^ ·) as bs) = divBits G as ^^^ divBits G bs :=
  foldl_divStep_zipWith_xor hG hlen (Nat.two_pow_pos _) (Nat.two_pow_pos _)

theorem bitsOf1_xor (a b : Byte) : bitsOf1 (a ^^^ b) = List.zipWith (· ^^ ·) (bitsOf1 a) (bitsOf1 b) := by
  simp [bitsOf1]

theorem bitsOf_cons (b : Byte) (bs : List Byte) : bitsOf (b :: bs) = bitsOf1 b ++ bitsOf bs := List.flatMap_cons

theorem bitsOf_zipWith_xor {M E : List Byte} (hlen : M.length = E.length) :
    bitsOf (List.zipWith (· ^^^ ·) M E) = List.zipWith (· ^^ ·) (bitsOf M) (bitsOf E) := by
  induction M generalizing E with
  | nil => rw [List.length_eq_zero_iff.mp hlen.symm]; rfl
  | cons m M ih =>
    obtain ⟨e, E, rfl⟩ := List.exists_cons_of_length_eq_add_one hlen.symm
    simp only [List.zipWith_cons_cons, bitsOf_cons]
    rw [ih (by simpa using hlen), bitsOf1_xor]
    exact (List.zipWith_append (show (bitsOf1 m).length = (bitsOf1 e).length from rfl)).symm

/-- The remainder of the XOR of two sequences of equal length (40_crc.md R123). -/
theorem crcRemainder_zipWith_xor {G : Nat} (hG : 1 ≤ G) {M E : List Byte} (hlen : M.length = E.length) :
    crcRemainder G (List.zipWith (· ^^^ ·) M E) = crcRemainder G M ^^^ crcRemainder G E := by
  rw [crcRemainder, bitsOf_zipWith_xor hlen]
  exact divBits_zipWith_xor hG (by rw [length_bitsOf, length_bitsOf, hlen])

/-- Settles O30: the altered sequence has the remainder of the error pattern alone. -/
theorem crcRemainderIsLinear : Obligations.CrcRemainderIsLinear := by
  intro G M E hG hlen
  have hxor := crcRemainder_zipWith_xor (Nat.le_of_succ_le hG) hlen
  exact ⟨hxor, fun hM => by rw [hxor, hM, Nat.zero_xor]⟩

end Sys2Proof.Machine
end

section
/-! PROOF. The division engine as polynomial division over GF(2) (40_crc.md R119). -/

namespace Sys2Proof.Machine

open Polynomial

/-! ### Numbers and bit sequences as polynomials -/

/-- The polynomial over GF(2) whose coefficients are the low w bits of a number, bit i that of X^i. -/
noncomputable def polyOfNat (w n : Nat) : (ZMod 2)[X] := ∑ i ∈ Finset.range w, if n.testBit i then X ^ i else 0

/-- The polynomial a bit sequence stands for, first bit the leading coefficient (40_crc.md R119). -/
noncomputable def polyOfBits (bits : List Bool) : (ZMod 2)[X] := bits.foldl (fun p b => p * X + if b then 1 else 0) 0

theorem coeff_polyOfNat (w n i : Nat) : (polyOfNat w n).coeff i = if i < w ∧ n.testBit i = true then 1 else 0 := by
  have hterm : ∀ j, (if n.testBit j then X ^ j else 0 : (ZMod 2)[X]).coeff i
      = if i = j then if n.testBit j then 1 else 0 else 0 := by
    intro j
    split_ifs <;> simp [coeff_X_pow, *]
  simp [polyOfNat, hterm, ite_and]

@[simp] theorem polyOfNat_zero (w : Nat) : polyOfNat w 0 = 0 := by simp [polyOfNat]

/-- XOR is the addition of polynomials over GF(2). -/
theorem polyOfNat_xor (w a b : Nat) : polyOfNat w (a ^^^ b) = polyOfNat w a + polyOfNat w b := by
  rw [polyOfNat, polyOfNat, polyOfNat, ← Finset.sum_add_distrib]
  refine Finset.sum_congr rfl fun i _ => ?_
  rw [Nat.testBit_xor]
  cases a.testBit i <;> cases b.testBit i <;> simp [CharTwo.add_self_eq_zero]

theorem polyOfNat_succ_of_lt {w n : Nat} (hn : n < 2 ^ w) : polyOfNat (w + 1) n = polyOfNat w n := by
  simp [polyOfNat, Finset.sum_range_succ, Nat.testBit_lt_two_pow hn]

/-- Shifting a bit in multiplies by X and adds the bit. -/
theorem polyOfNat_two_mul_add (w R : Nat) (b : Bool) :
    polyOfNat (w + 1) (2 * R + b.toNat) = polyOfNat w R * X + if b then 1 else 0 := by
  simp only [polyOfNat, Finset.sum_range_succ', testBit_two_mul_add, Finset.sum_mul, ite_mul, zero_mul, pow_succ,
    pow_zero]

theorem polyOfNat_two_pow {w m : Nat} (hm : m < w) : polyOfNat w (2 ^ m) = X ^ m := by
  ext i
  rw [coeff_polyOfNat, coeff_X_pow, Nat.testBit_two_pow]
  by_cases hi : i = m
  · simp [hi, hm]
  · simp [hi, Ne.symm hi]

theorem degree_polyOfNat_lt (w n : Nat) : (polyOfNat w n).degree < w := by
  refine (degree_lt_iff_coeff_zero _ _).mpr fun i hi => ?_
  rw [coeff_polyOfNat, if_neg fun h => hi.not_gt h.1]

theorem coeff_polyOfNat_of_testBit {w n i : Nat} (hn : n < 2 ^ w) (hbit : n.testBit i = true) :
    (polyOfNat w n).coeff i = 1 := by
  have hi : i < w := (Nat.pow_lt_pow_iff_right (by decide)).mp ((Nat.ge_two_pow_of_testBit hbit).trans_lt hn)
  rw [coeff_polyOfNat, if_pos ⟨hi, hbit⟩]

theorem polyOfNat_eq_zero_iff {w n : Nat} (hn : n < 2 ^ w) : polyOfNat w n = 0 ↔ n = 0 := by
  refine ⟨fun h => Nat.eq_of_testBit_eq fun i => ?_, fun h => by rw [h, polyOfNat_zero]⟩
  rw [Nat.zero_testBit]
  by_contra hbit
  have hcoeff := coeff_polyOfNat_of_testBit hn (Bool.not_eq_false _ ▸ hbit)
  simp [h] at hcoeff

theorem polyOfBits_concat (bits : List Bool) (b : Bool) :
    polyOfBits (bits ++ [b]) = polyOfBits bits * X + if b then 1 else 0 := by
  simp [polyOfBits]

/-- A sequence stands for the polynomial of the number it spells. -/
theorem polyOfBits_eq (bits : List Bool) : polyOfBits bits = polyOfNat bits.length (bitsValue bits) := by
  induction bits using List.reverseRecOn with
  | nil => rfl
  | append_singleton bits b ih =>
    rw [polyOfBits_concat, ih, List.length_append, List.length_singleton, bitsValue_concat, polyOfNat_two_mul_add]

/-! ### The generator's polynomial and the division -/

/-- The polynomial of a generator, of the generator's degree. -/
noncomputable def generatorPoly (G : Nat) : (ZMod 2)[X] := polyOfNat (degree G + 1) G

/-- Bit d is the leading term. -/
theorem generatorPoly_eq {G : Nat} (hG : 1 ≤ G) : generatorPoly G = X ^ degree G + polyOfNat (degree G) G := by
  rw [generatorPoly, polyOfNat, Finset.sum_range_succ, if_pos (degree_testBit hG), add_comm, polyOfNat]

theorem generatorPoly_monic {G : Nat} (hG : 1 ≤ G) : (generatorPoly G).Monic :=
  generatorPoly_eq hG ▸ monic_X_pow_add (degree_polyOfNat_lt _ _)

theorem degree_generatorPoly {G : Nat} (hG : 1 ≤ G) : (generatorPoly G).degree = degree G := by
  rw [generatorPoly_eq hG, degree_add_eq_left_of_degree_lt, degree_X_pow]
  exact (degree_polyOfNat_lt _ _).trans_eq (degree_X_pow _).symm

/-- One division step multiplies by X, adds the next bit, and adds the generator's polynomial or nothing (40_crc.md
R112). -/
theorem polyOfNat_divStep {G R : Nat} (b : Bool) (hG : 1 ≤ G) (hR : R < 2 ^ degree G) :
    polyOfNat (degree G) (divStep G R b)
      = polyOfNat (degree G) R * X + (if b then 1 else 0)
        + if (2 * R + b.toNat).testBit (degree G) then generatorPoly G else 0 := by
  rw [← polyOfNat_succ_of_lt (divStep_lt b hG hR), divStep_eq b hR, polyOfNat_xor, polyOfNat_two_mul_add, generatorPoly,
    apply_ite (polyOfNat _), polyOfNat_zero]

/-- Modulo the generator's polynomial, the register follows the polynomial of the bits taken in. -/
theorem generatorPoly_dvd_polyOfBits_sub {G : Nat} (hG : 1 ≤ G) (bits : List Bool) :
    generatorPoly G ∣ polyOfBits bits - polyOfNat (degree G) (divBits G bits) := by
  induction bits using List.reverseRecOn with
  | nil => simp [polyOfBits]
  | append_singleton bits b ih =>
    rw [divBits_concat, polyOfBits_concat, polyOfNat_divStep b hG (divBits_lt hG bits), ← sub_sub,
      add_sub_add_right_eq_sub, ← sub_mul]
    refine dvd_sub (ih.mul_right X) ?_
    split
    · exact dvd_rfl
    · exact dvd_zero _

/-- The register holds the remainder of the sequence's polynomial (40_crc.md R119). -/
theorem polyOfNat_divBits {G : Nat} (hG : 1 ≤ G) (bits : List Bool) :
    polyOfNat (degree G) (divBits G bits) = polyOfBits bits %ₘ generatorPoly G := by
  have hmonic := generatorPoly_monic hG
  rw [modByMonic_eq_of_dvd_sub hmonic (generatorPoly_dvd_polyOfBits_sub hG bits), eq_comm,
    modByMonic_eq_self_iff hmonic, degree_generatorPoly hG]
  exact degree_polyOfNat_lt _ _

/-- Settles O27: each step keeps the register congruent to the bits taken in, and below the generator's degree. -/
theorem divisionIsThePolynomialRemainder : Obligations.DivisionIsThePolynomialRemainder := fun _ bits hG =>
  polyOfNat_divBits hG bits

end Sys2Proof.Machine
end

section
/-! PROOF. The single-bit flips that a generator with two set bits detects: a flip adds a power of X, and the generator's
polynomial divides none (40_crc.md R123). -/

namespace Sys2Proof.Machine

open Polynomial

/-! ### Divisibility by the generator's polynomial -/

/-- A sequence divides without remainder exactly when its polynomial is a multiple of the generator's. -/
theorem crcRemainder_eq_zero_iff {G : Nat} (hG : 1 ≤ G) (M : List Byte) :
    crcRemainder G M = 0 ↔ generatorPoly G ∣ polyOfBits (bitsOf M) := by
  rw [← modByMonic_eq_zero_iff_dvd (generatorPoly_monic hG), ← polyOfNat_divBits hG,
    polyOfNat_eq_zero_iff (divBits_lt hG _), crcRemainder]

/-- The monic divisors of a power of X are powers of X, and those have a single term. -/
theorem generatorPoly_not_dvd_X_pow {G a b : Nat} (hab : a < b) (ha : G.testBit a = true) (hb : G.testBit b = true)
    (m : Nat) : ¬ generatorPoly G ∣ X ^ m := by
  intro hdvd
  obtain ⟨i, -, hassoc⟩ := (dvd_prime_pow prime_X m).mp hdvd
  have hG : 1 ≤ G := (Nat.two_pow_pos a).trans_le (Nat.ge_two_pow_of_testBit ha)
  have hpow : generatorPoly G = X ^ i := eq_of_monic_of_associated (generatorPoly_monic hG) (monic_X_pow i) hassoc
  have hterm : ∀ j, G.testBit j = true → j = i := by
    intro j hj
    by_contra hne
    have hcoeff : (generatorPoly G).coeff j = 1 := coeff_polyOfNat_of_testBit (degree_bounds hG).2 hj
    simp [hpow, coeff_X_pow, hne] at hcoeff
  exact hab.ne ((hterm a ha).trans (hterm b hb).symm)

/-! ### The error pattern of a flip -/

/-- The error pattern of n bytes in which bit k of byte i alone is set. -/
def flipPattern (n i k : Nat) : List Byte := (List.replicate n 0).set i (BitVec.ofNat 8 (2 ^ k))

@[simp] theorem length_flipPattern (n i k : Nat) : (flipPattern n i k).length = n := by simp [flipPattern]

theorem set_xor_eq_zipWith_flipPattern {M : List Byte} {i : Nat} (k : Nat) (hi : i < M.length) :
    M.set i (M[i] ^^^ BitVec.ofNat 8 (2 ^ k)) = List.zipWith (· ^^^ ·) M (flipPattern M.length i k) := by
  refine List.ext_getElem (by simp) fun j _ _ => ?_
  rw [List.getElem_zipWith, List.getElem_set]
  by_cases hij : i = j
  · subst hij
    simp [flipPattern]
  · simp [flipPattern, hij]

theorem bytesValue_append_zeros (bs : List Byte) (n : Nat) :
    bytesValue (bs ++ List.replicate n 0) = bytesValue bs * 256 ^ n := by
  induction n with
  | zero => simp
  | succ n ih =>
    rw [List.replicate_succ', ← List.append_assoc, bytesValue_concat, ih, Nat.pow_succ, Nat.mul_assoc]
    rfl

/-- The pattern spells the power of two of the bit it sets. -/
theorem bytesValue_flipPattern {n i k : Nat} (hi : i < n) (hk : k < 8) :
    bytesValue (flipPattern n i k) = 2 ^ (8 * (n - (i + 1)) + k) := by
  have hsplit : flipPattern n i k
      = ([] ++ List.replicate i 0) ++ [BitVec.ofNat 8 (2 ^ k)] ++ List.replicate (n - (i + 1)) 0 := by
    simp [flipPattern, List.set_eq_take_append_cons_drop, hi, hi.le]
  have hbyte : 2 ^ k < 2 ^ 8 := Nat.pow_lt_pow_right (by decide) hk
  rw [hsplit, bytesValue_append_zeros, bytesValue_concat, bytesValue_append_zeros, BitVec.toNat_ofNat,
    Nat.mod_eq_of_lt hbyte, Nat.pow_add, Nat.pow_mul, Nat.mul_comm]
  simp [bytesValue]

/-- The polynomial of a single-bit error is a power of X. -/
theorem polyOfBits_flipPattern {n i k : Nat} (hi : i < n) (hk : k < 8) :
    polyOfBits (bitsOf (flipPattern n i k)) = X ^ (8 * (n - (i + 1)) + k) := by
  rw [polyOfBits_eq, bitsValue_bitsOf, bytesValue_flipPattern hi hk, length_bitsOf, length_flipPattern]
  exact polyOfNat_two_pow (by omega)

/-- Settles O31: the flipped sequence has the remainder of the flip alone, whose polynomial is a power of X and no
multiple of the generator's. -/
theorem singleBitFlipIsDetectedByCrc : Obligations.SingleBitFlipIsDetectedByCrc := by
  intro G M i k a b hab ha hb hk hi hM
  have hG : 1 ≤ G := (Nat.two_pow_pos a).trans_le (Nat.ge_two_pow_of_testBit ha)
  rw [set_xor_eq_zipWith_flipPattern k hi, crcRemainder_zipWith_xor hG (length_flipPattern _ _ _).symm, hM,
    Nat.zero_xor, ne_eq, crcRemainder_eq_zero_iff hG, polyOfBits_flipPattern hi hk]
  exact generatorPoly_not_dvd_X_pow hab ha hb _

end Sys2Proof.Machine
end
